-- ==== Sys2Proof/Word.lean ====
section
/-! DEFINITION. The units the block moves: bytes of the buffer, words of the two ports, whole transactions. -/

namespace Sys2Proof

/-- A buffer byte, 8 bits, 0 to 255 (10_state.md R10). -/
abbrev Byte := BitVec 8

/-- A word of the command and response ports, 16 bits (20_memory.md R20, 30_encoding.md R35). -/
abbrev Word := BitVec 16

/-- One whole transaction on a port: a finite sequence of words, word 0 first (30_encoding.md R35). -/
abbrev Transaction := List Word

/-- A character of a text or hexadecimal result, as its code point (42_raw_hex_text.md R102, R103). -/
abbrev CodePoint := Nat

end Sys2Proof
end

