-- ==== Sys2Proof/Config.lean ====
section
/-! DEFINITION. The parameters of one WordCodec (00_scope.md R5 to R9): constants no command reads or changes (10_state.md R15).
There is no free value: the spec leaves no result of any command open. -/

namespace Sys2Proof

/-- What SWAP.WORDS does when the buffer length is not a multiple of 4 (00_scope.md R6). -/
inductive SwapWordsPolicy where
  /-- Complete 4-byte groups are swapped, the remaining bytes are left untouched, no error (43_order_transforms.md R112). -/
  | lenient
  /-- LengthError, buffer unchanged (43_order_transforms.md R113). -/
  | strict
  deriving DecidableEq, Repr

/-- The two OPEN parameters (92_eei_decisions.md D1, D2). -/
structure Config where
  /-- `CAP_WORDS`, the capacity of the buffer in words (00_scope.md R5). -/
  capWords : Nat
  /-- `SWAP_WORDS_POLICY` (00_scope.md R6). -/
  swapWordsPolicy : SwapWordsPolicy
  deriving DecidableEq, Repr

/-- `CAP_BYTES = 2 * CAP_WORDS` (00_scope.md R5). -/
def Config.capBytes (c : Config) : Nat := 2 * c.capWords

/-- `1 <= CAP_WORDS <= 13107`, so that every response count fits one word (00_scope.md R5). -/
def Config.legal (c : Config) : Bool := decide (1 ≤ c.capWords ∧ c.capWords ≤ 13107)

/-- The values of this hardware (00_scope.md R5, R6; log entry 4). -/
def Config.thisHardware : Config := { capWords := 128, swapWordsPolicy := .lenient }

/-- `HEX_DELIM`, the character `-`, U+002D (00_scope.md R7). -/
def Config.hexDelim : CodePoint := 0x2D

/-- `OPW`, the width in bits of an integer operand element (00_scope.md R9). -/
abbrev Config.opw : Nat := 80

end Sys2Proof
end

