-- ==== Sys2Proof/Syntax.lean ====
section
/-! DEFINITION. The 23 commands, one constructor per row of spec/opcode_table.json (30_encoding.md R41), with their decoded
operands: the semantic rules are stated over these and never over the command words (30_encoding.md R35). -/

namespace Sys2Proof

/-- The scalar types of 20_memory.md R22. -/
inductive ScalarType where
  | u16 | i16 | u32 | i32 | u64 | i64 | f32 | f64 | words
  deriving DecidableEq, Repr

/-- `ENC_SET`: the single-byte text encodings RD.TEXT supports (00_scope.md R8). -/
inductive TextEnc where
  /-- `ENC = 0`, ISO 8859-1 (42_raw_hex_text.md R105). -/
  | latin1
  /-- `ENC = 1`, US-ASCII (42_raw_hex_text.md R106). -/
  | ascii
  deriving DecidableEq, Repr

/-- A command with its operands. An integer operand is a mathematical integer (40_load_pack.md R60), a float operand a bit
pattern (R68), an operand of LD.WORDS a word (R71, log entry 9). -/
inductive Instr where
  /-- LD.U16 (40_load_pack.md R62). -/
  | ldU16 (vs : List Int)
  /-- LD.I16 (40_load_pack.md R63). -/
  | ldI16 (vs : List Int)
  /-- LD.U32 (40_load_pack.md R64). -/
  | ldU32 (vs : List Int)
  /-- LD.I32 (40_load_pack.md R65). -/
  | ldI32 (vs : List Int)
  /-- LD.U64 (40_load_pack.md R66). -/
  | ldU64 (vs : List Int)
  /-- LD.I64 (40_load_pack.md R67). -/
  | ldI64 (vs : List Int)
  /-- LD.F32 (40_load_pack.md R69). -/
  | ldF32 (vs : List (BitVec 32))
  /-- LD.F64 (40_load_pack.md R70). -/
  | ldF64 (vs : List (BitVec 64))
  /-- LD.WORDS (40_load_pack.md R71). -/
  | ldWords (vs : List Word)
  /-- RD.U16 (41_view_unpack.md R82). -/
  | rdU16
  /-- RD.I16 (41_view_unpack.md R83). -/
  | rdI16
  /-- RD.U32 (41_view_unpack.md R84). -/
  | rdU32
  /-- RD.I32 (41_view_unpack.md R85). -/
  | rdI32
  /-- RD.U64 (41_view_unpack.md R86). -/
  | rdU64
  /-- RD.I64 (41_view_unpack.md R87). -/
  | rdI64
  /-- RD.F32 (41_view_unpack.md R88). -/
  | rdF32
  /-- RD.F64 (41_view_unpack.md R89). -/
  | rdF64
  /-- RD.WORDS (41_view_unpack.md R90). -/
  | rdWords
  /-- RD.BYTES (42_raw_hex_text.md R100). -/
  | rdBytes
  /-- RD.HEX (42_raw_hex_text.md R101). -/
  | rdHex
  /-- RD.TEXT enc (42_raw_hex_text.md R103). -/
  | rdText (enc : TextEnc)
  /-- SWAP.BYTES (43_order_transforms.md R111). -/
  | swapBytes
  /-- SWAP.WORDS (43_order_transforms.md R112). -/
  | swapWords
  deriving DecidableEq, Repr

end Sys2Proof
end

