-- ==== Sys2Proof/WellFormed.lean ====
section
/-! DEFINITION. Which command terms the command port can carry: the operand count fits the count word (30_encoding.md R37) and
every integer operand fits the 80-bit element (30_encoding.md R38, 00_scope.md R9). Floats, words and text selectors cannot be
ill-formed: their types hold exactly what the port carries (R39, R8). -/

namespace Sys2Proof

/-- An element count fits `c[1]`: 0 to 65535 (30_encoding.md R37). -/
def countFits (n : Nat) : Bool := decide (n ≤ 65535)

/-- An integer fits the operand element: `-2^79` to `2^79 - 1` (30_encoding.md R38). -/
def elementFits (v : Int) : Bool := decide (-(2 ^ 79) ≤ v ∧ v < 2 ^ 79)

/-- The operand list of an integer load is one the port can carry. -/
def intOperandsFit (vs : List Int) : Bool := countFits vs.length && vs.all elementFits

/-- The commands the port can carry. -/
def Instr.wellFormed : Instr → Bool
  | .ldU16 vs => intOperandsFit vs
  | .ldI16 vs => intOperandsFit vs
  | .ldU32 vs => intOperandsFit vs
  | .ldI32 vs => intOperandsFit vs
  | .ldU64 vs => intOperandsFit vs
  | .ldI64 vs => intOperandsFit vs
  | .ldF32 vs => countFits vs.length
  | .ldF64 vs => countFits vs.length
  | .ldWords vs => countFits vs.length
  | .rdU16 => true
  | .rdI16 => true
  | .rdU32 => true
  | .rdI32 => true
  | .rdU64 => true
  | .rdI64 => true
  | .rdF32 => true
  | .rdF64 => true
  | .rdWords => true
  | .rdBytes => true
  | .rdHex => true
  | .rdText _ => true
  | .swapBytes => true
  | .swapWords => true

end Sys2Proof
end

