-- ==== Sys2Proof/Decode.lean ====
section
/-! DEFINITION. The command decoder, total on any word sequence (30_encoding.md R36 to R44), the encoder written from the same
tables, and the host's reading of a word of spec/opcode_table.json. -/

namespace Sys2Proof

/-! ### The header word (30_encoding.md R36) -/

/-- `cls`, bits 15:12. -/
def headerCls (h : Word) : Nat := (h.extractLsb' 12 4).toNat

/-- `typ`, bits 11:8. -/
def headerTyp (h : Word) : Nat := (h.extractLsb' 8 4).toNat

/-- `arg`, bits 7:0. -/
def headerArg (h : Word) : Nat := (h.extractLsb' 0 8).toNat

/-- The header with the given fields. -/
def headerWord (cls typ arg : Nat) : Word := BitVec.ofNat 16 (4096 * cls + 256 * typ + arg)

/-! ### Type codes and operand elements -/

/-- The type code of a load or scalar view (20_memory.md R22). -/
def ScalarType.code : ScalarType → Nat
  | .u16 => 0
  | .i16 => 1
  | .u32 => 2
  | .i32 => 3
  | .u64 => 4
  | .i64 => 5
  | .f32 => 6
  | .f64 => 7
  | .words => 8

/-- The type a load's `typ` field selects: codes 0 to 8, the others reserved (30_encoding.md R36, R43). -/
def loadType : Nat → Option ScalarType
  | 0 => some .u16
  | 1 => some .i16
  | 2 => some .u32
  | 3 => some .i32
  | 4 => some .u64
  | 5 => some .i64
  | 6 => some .f32
  | 7 => some .f64
  | 8 => some .words
  | _ => none

/-- `ow(T)`, the width of an operand element in words (30_encoding.md R37). -/
def ScalarType.operandWords : ScalarType → Nat
  | .u16 => 5
  | .i16 => 5
  | .u32 => 5
  | .i32 => 5
  | .u64 => 5
  | .i64 => 5
  | .f32 => 2
  | .f64 => 4
  | .words => 1

/-- Integer elements: five words each, most significant first, read as an 80-bit two's-complement number (30_encoding.md R38). -/
def intElements : List Word → List Int
  | a :: b :: c :: d :: e :: rest => (a ++ b ++ c ++ d ++ e : BitVec 80).toInt :: intElements rest
  | _ => []

/-- Single-precision elements: two words each, the first holding bits 31:16 (30_encoding.md R39). -/
def f32Elements : List Word → List (BitVec 32)
  | a :: b :: rest => (a ++ b : BitVec 32) :: f32Elements rest
  | _ => []

/-- Double-precision elements: four words each, the first holding bits 63:48 (30_encoding.md R39). -/
def f64Elements : List Word → List (BitVec 64)
  | a :: b :: c :: d :: rest => (a ++ b ++ c ++ d : BitVec 64) :: f64Elements rest
  | _ => []

/-- The load of a type with its data words (30_encoding.md R42). -/
def loadOf (T : ScalarType) (data : List Word) : Instr :=
  match T with
  | .u16 => .ldU16 (intElements data)
  | .i16 => .ldI16 (intElements data)
  | .u32 => .ldU32 (intElements data)
  | .i32 => .ldI32 (intElements data)
  | .u64 => .ldU64 (intElements data)
  | .i64 => .ldI64 (intElements data)
  | .f32 => .ldF32 (f32Elements data)
  | .f64 => .ldF64 (f64Elements data)
  | .words => .ldWords data

/-- The encoding an `ENC` selector names; 2 to 255 are reserved (00_scope.md R8, 42_raw_hex_text.md R107). -/
def TextEnc.ofSelector : Nat → Option TextEnc
  | 0 => some .latin1
  | 1 => some .ascii
  | _ => none

/-- The `ENC` selector of an encoding (00_scope.md R8). -/
def TextEnc.selector : TextEnc → Nat
  | .latin1 => 0
  | .ascii => 1

/-- The view a `typ` field selects, RD.TEXT (`typ = 11`) apart (30_encoding.md R41). -/
def viewOf : Nat → Option Instr
  | 0 => some .rdU16
  | 1 => some .rdI16
  | 2 => some .rdU32
  | 3 => some .rdI32
  | 4 => some .rdU64
  | 5 => some .rdI64
  | 6 => some .rdF32
  | 7 => some .rdF64
  | 8 => some .rdWords
  | 9 => some .rdBytes
  | 10 => some .rdHex
  | _ => none

/-! ### The decoder (30_encoding.md R42) -/

/-- Why a word sequence is no command (30_encoding.md R43). The block's answer is the same for all of them, IllegalCommand with
`info = 0` (60_exceptions.md R125); the names are the model's (log entry 10). -/
inductive Illegal where
  /-- The empty command. -/
  | emptyCommand
  /-- `cls` 0 or 4 to 15. -/
  | reservedClass
  /-- A `typ` the class does not have. -/
  | reservedType
  /-- A non-zero `arg` in a command other than RD.TEXT. -/
  | nonzeroArg
  /-- RD.TEXT with `ENC` 2 to 255. -/
  | reservedEncoding
  /-- A length other than the one the format requires. -/
  | wrongLength
  deriving DecidableEq, Repr

/-- Class 1, format L: `rest` is the command without its header. -/
def decodeLoad (h : Word) (rest : List Word) : Except Illegal Instr :=
  match loadType (headerTyp h) with
  | none => .error .reservedType
  | some T =>
    if headerArg h ≠ 0 then .error .nonzeroArg
    else
      match rest with
      | [] => .error .wrongLength
      | n :: data =>
        if data.length ≠ n.toNat * T.operandWords then .error .wrongLength
        else .ok (loadOf T data)

/-- Class 2, format V. -/
def decodeView (h : Word) (rest : List Word) : Except Illegal Instr :=
  if 11 < headerTyp h then .error .reservedType
  else if rest ≠ [] then .error .wrongLength
  else if headerTyp h = 11 then
    match TextEnc.ofSelector (headerArg h) with
    | none => .error .reservedEncoding
    | some enc => .ok (.rdText enc)
  else if headerArg h ≠ 0 then .error .nonzeroArg
  else
    match viewOf (headerTyp h) with
    | none => .error .reservedType
    | some i => .ok i

/-- Class 3, format X. -/
def decodeSwap (h : Word) (rest : List Word) : Except Illegal Instr :=
  if 1 < headerTyp h then .error .reservedType
  else if headerArg h ≠ 0 then .error .nonzeroArg
  else if rest ≠ [] then .error .wrongLength
  else if headerTyp h = 0 then .ok .swapBytes
  else .ok .swapWords

/-- Decoding, total on every word sequence (30_encoding.md R42). -/
def decode (c : Transaction) : Except Illegal Instr :=
  match c with
  | [] => .error .emptyCommand
  | h :: rest =>
    if headerCls h = 1 then decodeLoad h rest
    else if headerCls h = 2 then decodeView h rest
    else if headerCls h = 3 then decodeSwap h rest
    else .error .reservedClass

/-! ### The encoder -/

/-- The five words of an integer operand element (30_encoding.md R38). -/
def intElement (v : Int) : List Word :=
  let p := BitVec.ofInt 80 v
  [p.extractLsb' 64 16, p.extractLsb' 48 16, p.extractLsb' 32 16, p.extractLsb' 16 16, p.extractLsb' 0 16]

/-- The two words of a single-precision operand element (30_encoding.md R39). -/
def f32Element (v : BitVec 32) : List Word := [v.extractLsb' 16 16, v.extractLsb' 0 16]

/-- The four words of a double-precision operand element (30_encoding.md R39). -/
def f64Element (v : BitVec 64) : List Word :=
  [v.extractLsb' 48 16, v.extractLsb' 32 16, v.extractLsb' 16 16, v.extractLsb' 0 16]

/-- Format L: header, count, elements in input order (30_encoding.md R37). -/
def encodeLoad (T : ScalarType) (n : Nat) (data : List Word) : Transaction :=
  headerWord 1 T.code 0 :: BitVec.ofNat 16 n :: data

/-- The words of a command (30_encoding.md R36 to R41). -/
def encode : Instr → Transaction
  | .ldU16 vs => encodeLoad .u16 vs.length (vs.flatMap intElement)
  | .ldI16 vs => encodeLoad .i16 vs.length (vs.flatMap intElement)
  | .ldU32 vs => encodeLoad .u32 vs.length (vs.flatMap intElement)
  | .ldI32 vs => encodeLoad .i32 vs.length (vs.flatMap intElement)
  | .ldU64 vs => encodeLoad .u64 vs.length (vs.flatMap intElement)
  | .ldI64 vs => encodeLoad .i64 vs.length (vs.flatMap intElement)
  | .ldF32 vs => encodeLoad .f32 vs.length (vs.flatMap f32Element)
  | .ldF64 vs => encodeLoad .f64 vs.length (vs.flatMap f64Element)
  | .ldWords vs => encodeLoad .words vs.length vs
  | .rdU16 => [headerWord 2 0 0]
  | .rdI16 => [headerWord 2 1 0]
  | .rdU32 => [headerWord 2 2 0]
  | .rdI32 => [headerWord 2 3 0]
  | .rdU64 => [headerWord 2 4 0]
  | .rdI64 => [headerWord 2 5 0]
  | .rdF32 => [headerWord 2 6 0]
  | .rdF64 => [headerWord 2 7 0]
  | .rdWords => [headerWord 2 8 0]
  | .rdBytes => [headerWord 2 9 0]
  | .rdHex => [headerWord 2 10 0]
  | .rdText enc => [headerWord 2 11 enc.selector]
  | .swapBytes => [headerWord 3 0 0]
  | .swapWords => [headerWord 3 1 0]

/-! ### The length of a command, and a word of the opcode table -/

/-- The length in words that the header and the count word ask for (30_encoding.md R44): `2 + N * ow(T)` for a load, 1 for a view
or a transform. For a header that is no command's the spec gives no length, and the model's choice (log entry 11) is `2 + N * ow(T)`
in class 1 with `typ` 0 to 8 and a non-zero `arg`, and 1 otherwise. -/
def commandLength (h n : Word) : Nat :=
  if headerCls h = 1 then
    match loadType (headerTyp h) with
    | none => 1
    | some T => 2 + n.toNat * T.operandWords
  else 1

/-- Word `k` of a number whose bits 15:0 are the first word, bits 31:16 the second, and so on. -/
def tableWord (v k : Nat) : Word := BitVec.ofNat 16 (v / 2 ^ (16 * k))

/-- The transaction that a number of the opcode table stands for: the words its `nbits` bits fill, and zero words after them as
far as the command's own length asks. -/
def tableTransaction (nbits w : Nat) : Transaction :=
  let v := w % 2 ^ nbits
  (List.range (max ((nbits + 15) / 16) (commandLength (tableWord v 0) (tableWord v 1)))).map (tableWord v)

/-- The instruction the decoder reads from a number of the opcode table. -/
def decodeTableWord (nbits w : Nat) : Option Instr :=
  match decode (tableTransaction nbits w) with
  | .ok i => some i
  | .error _ => none

end Sys2Proof
end

