-- ==== Sys2Proof/Machine/State.lean ====
section
/-! DEFINITION. The block's state, a byte list and nothing else (10_state.md R10); what a command puts out; the host's side of the
ports; and the closed system of block and host that the host's interface steps (log entry 1). The reasons a step can stop: the
block has none of its own (70_reset_and_hazards.md R154, log entry 16). -/

namespace Sys2Proof.Machine

/-- The buffer: a byte list, offset 0 first. This is the spec's state type: the block's state is one buffer and nothing else
(10_state.md R10; log entry 2), and the operations of the block (Ops.lean) are functions of it. It is the only memory. -/
abbrev Memory := List Byte

/-- An error a command ends with, carrying its `info` (60_exceptions.md R120, 30_encoding.md R47). -/
inductive CommandError where
  /-- RangeError: the index of the first operand element out of range (60_exceptions.md R121). -/
  | rangeError (k : Nat)
  /-- DecodeError: the offset of the first byte invalid under the encoding (60_exceptions.md R122). -/
  | decodeError (i : Nat)
  /-- LengthError: the buffer length in words (60_exceptions.md R123). -/
  | lengthError (n : Nat)
  /-- CapacityError: the element count of the refused load (60_exceptions.md R124). -/
  | capacityError (n : Nat)
  /-- IllegalCommand: the words are no command (60_exceptions.md R125). -/
  | illegalCommand
  deriving DecidableEq, Repr

/-- The typed result of a command that completes (30_encoding.md R46; log entry 8). -/
inductive Result where
  /-- A load or transform: the buffer length in words after it. -/
  | stored (words : Nat)
  /-- A scalar view: the list `[dec_T(element k)]`; for the float types each value is the bit pattern (41_view_unpack.md R81). -/
  | scalars (T : ScalarType) (vs : List Int)
  /-- RD.BYTES: the bytes of the buffer (42_raw_hex_text.md R100). -/
  | bytes (bs : List Byte)
  /-- RD.HEX and RD.TEXT: the characters (42_raw_hex_text.md R101, R103). -/
  | chars (cs : List CodePoint)
  deriving DecidableEq, Repr

/-- The response to one command (30_encoding.md R45 to R47). -/
inductive Response where
  /-- Status OK with a result. -/
  | ok (r : Result)
  /-- An error with its `info`. -/
  | error (e : CommandError)
  deriving DecidableEq, Repr

/-- What the host does to the block (60_exceptions.md R140, 70_reset_and_hazards.md R145). -/
inductive HostEvent where
  /-- One whole command transaction (30_encoding.md R35). -/
  | command (c : Transaction)
  /-- The reset event, with the command it interrupts if one is in progress (70_reset_and_hazards.md R145). -/
  | reset (inProgress : Option Transaction)
  deriving DecidableEq, Repr

/-- What one command leaves: the new buffer, and the response, an output of the step and no state (10_state.md section 5). -/
structure Completion where
  /-- The buffer after the command. -/
  buf : Memory
  /-- The command's one response (30_encoding.md R35). -/
  response : Response
  deriving DecidableEq, Repr

/-- The host's side of the two ports: the host's, no state of the block (10_state.md section 5; log entry 1). -/
structure HostSide where
  /-- What the host has issued and the block has not taken yet, oldest first (10_state.md R13, 20_memory.md R30). -/
  pending : List HostEvent
  /-- The responses the host has been given so far, in order (70_reset_and_hazards.md R155). -/
  responses : List Response
  deriving DecidableEq, Repr

/-- The closed system that the host's interface steps: the block beside the host's side of its ports. `buf` alone is the block's
state (10_state.md R10); no command's effect depends on the rest (log entry 1). -/
structure State extends HostSide where
  /-- The block's whole state (10_state.md R10). -/
  buf : Memory
  deriving DecidableEq, Repr

/-- The reasons a step can stop with a fault: none. No behaviour of the block stops it (70_reset_and_hazards.md R154: "every
command terminates and gives its response"); every error is a response. So nobody raises one. Log entry 16. -/
inductive Fault where
  deriving DecidableEq, Repr

/-- The reasons a step can refuse. -/
inductive Refusal where
  /-- Raised by an arm of `exec` whose instruction has no meaning yet; safe, since it proves nothing of that instruction. No arm
  raises it in this model. -/
  | notModelled (mnemonic : String)
  deriving DecidableEq, Repr

/-- The machine right after reset: the buffer is empty (10_state.md R19); the host has issued nothing and no response has been
given (log entry 1). -/
def State.reset : State := { buf := [], pending := [], responses := [] }

end Sys2Proof.Machine
end

