-- ==== Sys2Proof/Machine/Operands.lean ====
section
/-! DEFINITION. The pure operations on values and bytes: the type table, big-endian packing and unpacking, hexadecimal digits,
the text encodings and the strip. All are total on byte lists of any length (10_state.md R11, 92_eei_decisions.md D26). -/

namespace Sys2Proof.Machine

/-! ### The type table (20_memory.md R22) -/

/-- `bits(T)`. -/
def scalarBits : ScalarType → Nat
  | .u16 => 16
  | .i16 => 16
  | .u32 => 32
  | .i32 => 32
  | .u64 => 64
  | .i64 => 64
  | .f32 => 32
  | .f64 => 64
  | .words => 16

/-- `w(T) = bits(T) / 8`, the width in bytes. -/
def scalarWidth (T : ScalarType) : Nat := scalarBits T / 8

/-- The types whose patterns are read as two's complement. -/
def scalarSigned : ScalarType → Bool
  | .u16 => false
  | .i16 => true
  | .u32 => false
  | .i32 => true
  | .u64 => false
  | .i64 => true
  | .f32 => false
  | .f64 => false
  | .words => false

/-- The least value of `range(T)`. -/
def scalarMin : ScalarType → Int
  | .u16 => 0
  | .i16 => -32768
  | .u32 => 0
  | .i32 => -2147483648
  | .u64 => 0
  | .i64 => -9223372036854775808
  | .f32 => 0
  | .f64 => 0
  | .words => 0

/-- The greatest value of `range(T)`. -/
def scalarMax : ScalarType → Int
  | .u16 => 65535
  | .i16 => 32767
  | .u32 => 4294967295
  | .i32 => 2147483647
  | .u64 => 18446744073709551615
  | .i64 => 9223372036854775807
  | .f32 => 4294967295
  | .f64 => 18446744073709551615
  | .words => 65535

/-- `v` is in `range(T)`. -/
def inRange (T : ScalarType) (v : Int) : Bool := decide (scalarMin T ≤ v ∧ v ≤ scalarMax T)

/-- `tc_N(v) = v mod 2^N`, the two's-complement pattern (00_scope.md section 5). On a value that is not negative and fits it is
the value itself. -/
def twosComplement (n : Nat) (v : Int) : Nat := (v % 2 ^ n).toNat

/-- `sext_N(u)`, the signed reading of an N-bit pattern (00_scope.md section 5). -/
def signExtend (n u : Nat) : Int := if u < 2 ^ (n - 1) then u else u - 2 ^ n

/-- `enc_T(v)`, the pattern of a value. -/
def encScalar (T : ScalarType) (v : Int) : Nat := twosComplement (scalarBits T) v

/-- `dec_T(u)`, the value of an unsigned pattern. -/
def decScalar (T : ScalarType) (u : Nat) : Int := if scalarSigned T then signExtend (scalarBits T) u else u

/-! ### Byte order (20_memory.md R20 to R24) -/

/-- `ube(bytes)`: the unsigned value of a byte sequence read big-endian (00_scope.md section 5). -/
def ube (bs : List Byte) : Nat := bs.foldl (fun acc b => 256 * acc + b.toNat) 0

/-- `be_{8w}(u)`: the `w` bytes of `u`, most significant first (00_scope.md section 5). -/
def beBytes (w u : Nat) : List Byte := (List.range w).map fun k => BitVec.ofNat 8 (u / 2 ^ (8 * (w - 1 - k)))

/-- The big-endian packing of a sequence of values, in input order (40_load_pack.md R61). -/
def pack (T : ScalarType) (vs : List Int) : Memory := vs.flatMap fun v => beBytes (scalarWidth T) (encScalar T v)

/-- `MemRead(off, n)`: the `n` bytes from an offset, in offset order (00_scope.md section 5). Every use asks for bytes the
sequence has. -/
def memRead (off n : Nat) (m : Memory) : List Byte := (m.drop off).take n

/-- `MemWrite(off, n, bytes)`: replaces the bytes at an offset and never changes the length (00_scope.md section 5); a write
that would leave the sequence, which no command makes, changes nothing. -/
def memWrite (off : Nat) (bs : List Byte) (m : Memory) : Memory :=
  if off + bs.length ≤ m.length then m.take off ++ bs ++ m.drop (off + bs.length) else m

/-- The chunks of width `w`, from offset 0; the remainder takes part in none (20_memory.md R24, R25). -/
def chunks (w : Nat) (m : Memory) : List (List Byte) := (List.range (m.length / w)).map fun k => memRead (k * w) w m

/-- The typed view of a byte sequence (41_view_unpack.md R81). -/
def view (T : ScalarType) (m : Memory) : List Int := (chunks (scalarWidth T) m).map fun ch => decScalar T (ube ch)

/-! ### Order transforms (43_order_transforms.md R110 to R112) -/

/-- The two bytes of every complete pair change places; a lone last byte stays (43_order_transforms.md R111, D26). -/
def swapPairs : Memory → Memory
  | b0 :: b1 :: rest => b1 :: b0 :: swapPairs rest
  | rest => rest

/-- The two words of every complete 4-byte group change places; the remainder stays (43_order_transforms.md R112). -/
def swapGroups : Memory → Memory
  | b0 :: b1 :: b2 :: b3 :: rest => b2 :: b3 :: b0 :: b1 :: swapGroups rest
  | rest => rest

/-! ### Hexadecimal text (42_raw_hex_text.md R101, R102) -/

/-- The digit of a value 0 to 15: `0` to `9`, then uppercase `A` to `F`. -/
def hexDigit (d : Nat) : CodePoint := if d < 10 then 0x30 + d else 0x41 + (d - 10)

/-- `hex2(b)`: the digit of `b[7:4]`, then the digit of `b[3:0]`. -/
def hex2 (b : Byte) : List CodePoint := [hexDigit (b.toNat / 16), hexDigit (b.toNat % 16)]

/-- The hexadecimal text: one group of four characters per complete pair, the delimiter between groups only. -/
def hexText (m : Memory) : List CodePoint :=
  List.intercalate [Config.hexDelim] ((chunks 2 m).map fun ch => ch.flatMap hex2)

/-! ### Text (42_raw_hex_text.md R103 to R107) -/

/-- The partial byte-to-code-point map of an encoding: ISO 8859-1 (R105) and US-ASCII (R106). -/
def encodingMap : TextEnc → Byte → Option CodePoint
  | .latin1, b => some b.toNat
  | .ascii, b => if b.toNat < 0x80 then some b.toNat else none

/-- Decodes bytes one by one, the first at offset `i`; stops at the first byte without a code point, with its offset (R103). The
map is a parameter (R107). -/
def decodeChars (map : Byte → Option CodePoint) : Nat → List Byte → Except Nat (List CodePoint)
  | _, [] => .ok []
  | i, b :: bs =>
    match map b with
    | none => .error i
    | some c =>
      match decodeChars map (i + 1) bs with
      | .error k => .error k
      | .ok cs => .ok (c :: cs)

/-- Drops the longest suffix of U+0000 characters and nothing else (R104). -/
def stripNuls (cs : List CodePoint) : List CodePoint := (cs.reverse.dropWhile (· == 0)).reverse

/-- Decodes all bytes, then strips (R103). -/
def textOf (map : Byte → Option CodePoint) (m : Memory) : Except Nat (List CodePoint) :=
  match decodeChars map 0 m with
  | .error i => .error i
  | .ok cs => .ok (stripNuls cs)

end Sys2Proof.Machine
end

