-- ==== Sys2Proof/Machine/Ops.lean ====
section
/-! DEFINITION. The named operations of the machine: reading a byte, answering, ending in an error, and the shared operation
behind each family of commands, each a function of the block's state alone. Every operation that depends on a parameter takes the `Config`. -/

namespace Sys2Proof.Machine

/-! ### Memory -/

/-- The byte at an offset of the buffer; none at or past its length (10_state.md R10, R18; log entry 3). -/
def State.readByte (s : State) (off : Nat) : Option Byte := s.buf[off]?

/-- The buffer as (offset, byte) pairs, offsets rising: the same data as the byte list (log entry 2). -/
def Memory.cells (m : Memory) : List Host.Cell := m.zipIdx.map fun p => (p.2, p.1)

/-- The pairs are in the one form there is: the offsets are exactly 0, 1, ..., length - 1. -/
def Memory.wf (m : Memory) : Bool := decide ((Memory.cells m).map Prod.fst = List.range m.length)

/-- `buf <- m`: replaces the whole buffer, contents and length (00_scope.md section 5). -/
def State.setBuf (m : Memory) (s : State) : State := { s with buf := m }

/-- The command leaves its buffer in the block, and its response goes out to the host (30_encoding.md R35). -/
def State.complete (k : Completion) (s : State) : State := { s with buf := k.buf, responses := s.responses ++ [k.response] }

/-- A command is a function of the buffer alone (10_state.md R10, R17); it always completes (70_reset_and_hazards.md R154). -/
def perform (f : Memory → Completion) (s : State) : Host.Outcome State Fault Refusal := .next (s.complete (f s.buf))

/-! ### Answering and ending in an error -/

/-- `raise <Error>(info)`, the block's whole trap entry: the error response is given, no state is written, nothing is saved, no
mode changes and control goes nowhere (60_exceptions.md R131, R132). There is no return from it and nothing to restore
(R133): the state left is the state the next command runs in. -/
def raise (e : CommandError) (m : Memory) : Completion := { buf := m, response := .error e }

/-- The answer to words that are no command: nothing is read or written (60_exceptions.md R125). -/
def illegalCommand (m : Memory) : Completion := raise .illegalCommand m

/-- `respond OK(count = len(buf) / 2)` of loads and transforms: the new buffer is stored and its length in words is answered
(40_load_pack.md R61, 43_order_transforms.md R110). For an odd length, which no reachable buffer has, the rules' `len / 2` is no
whole number, and the model rounds it down (log entry 19). -/
def storeAndAnswer (m : Memory) : Completion := { buf := m, response := .ok (.stored (m.length / 2)) }

/-- `respond OK(count, payload)` of a view: the buffer is not written (41_view_unpack.md R80). -/
def answer (r : Result) (m : Memory) : Completion := { buf := m, response := .ok r }

/-- The reset event: the buffer is emptied; a command in progress writes nothing further and gets no response
(70_reset_and_hazards.md R145). The host's side is the host's (log entry 6). -/
def resetEvent (s : State) : State := s.setBuf []

/-! ### The families -/

/-- The index of the first value out of range (60_exceptions.md R121). -/
def firstOutOfRange (T : ScalarType) (vs : List Int) : Option Nat := vs.findIdx? fun v => !inRange T v

/-- `LD.<T>(vs)` (40_load_pack.md R61): the capacity check, then the range check in element order, then the one write
(priority: 60_exceptions.md R128). -/
def load (c : Config) (T : ScalarType) (vs : List Int) (m : Memory) : Completion :=
  if c.capBytes < vs.length * scalarWidth T then raise (.capacityError vs.length) m
  else
    match firstOutOfRange T vs with
    | some k => raise (.rangeError k) m
    | none => storeAndAnswer (pack T vs)

/-- `RD.<T>()` (41_view_unpack.md R81). -/
def viewScalars (T : ScalarType) (m : Memory) : Completion := answer (.scalars T (view T m)) m

/-- `RD.BYTES()` (42_raw_hex_text.md R100). -/
def viewBytes (m : Memory) : Completion := answer (.bytes m) m

/-- `RD.HEX()` (42_raw_hex_text.md R101). -/
def viewHex (m : Memory) : Completion := answer (.chars (hexText m)) m

/-- `RD.TEXT(ENC)` with the encoding's map (42_raw_hex_text.md R103, R107). -/
def viewText (map : Byte → Option CodePoint) (m : Memory) : Completion :=
  match textOf map m with
  | .error i => raise (.decodeError i) m
  | .ok cs => answer (.chars cs) m

/-- `SWAP.BYTES()` (43_order_transforms.md R111). -/
def orderSwapBytes (m : Memory) : Completion := storeAndAnswer (swapPairs m)

/-- `SWAP.WORDS()` under either policy (43_order_transforms.md R112, R113). The `info` of an odd length, which no reachable buffer has,
is rounded down (log entry 19). -/
def orderSwapWords (c : Config) (m : Memory) : Completion :=
  match c.swapWordsPolicy with
  | .lenient => storeAndAnswer (swapGroups m)
  | .strict =>
    if m.length % 4 ≠ 0 then raise (.lengthError (m.length / 2)) m
    else storeAndAnswer (swapGroups m)

end Sys2Proof.Machine
end

