-- ==== Sys2Proof/Machine/Load.lean ====
section
/-! DEFINITION. The nine load commands (40_load_pack.md R62 to R71): each the shared load of its own type. -/

namespace Sys2Proof.Machine

/-- LD.U16 (40_load_pack.md R62). -/
def execLdU16 (vs : List Int) (s : State) : Host.Outcome State Fault Refusal :=
  perform (load Config.thisHardware .u16 vs) s

/-- LD.I16 (40_load_pack.md R63). -/
def execLdI16 (vs : List Int) (s : State) : Host.Outcome State Fault Refusal :=
  perform (load Config.thisHardware .i16 vs) s

/-- LD.U32 (40_load_pack.md R64). -/
def execLdU32 (vs : List Int) (s : State) : Host.Outcome State Fault Refusal :=
  perform (load Config.thisHardware .u32 vs) s

/-- LD.I32 (40_load_pack.md R65). -/
def execLdI32 (vs : List Int) (s : State) : Host.Outcome State Fault Refusal :=
  perform (load Config.thisHardware .i32 vs) s

/-- LD.U64 (40_load_pack.md R66). -/
def execLdU64 (vs : List Int) (s : State) : Host.Outcome State Fault Refusal :=
  perform (load Config.thisHardware .u64 vs) s

/-- LD.I64 (40_load_pack.md R67). -/
def execLdI64 (vs : List Int) (s : State) : Host.Outcome State Fault Refusal :=
  perform (load Config.thisHardware .i64 vs) s

/-- LD.F32 (40_load_pack.md R69). The patterns are stored as given (R68). -/
def execLdF32 (vs : List (BitVec 32)) (s : State) : Host.Outcome State Fault Refusal :=
  perform (load Config.thisHardware .f32 (vs.map fun v => (v.toNat : Int))) s

/-- LD.F64 (40_load_pack.md R70). The patterns are stored as given (R68). -/
def execLdF64 (vs : List (BitVec 64)) (s : State) : Host.Outcome State Fault Refusal :=
  perform (load Config.thisHardware .f64 (vs.map fun v => (v.toNat : Int))) s

/-- LD.WORDS (40_load_pack.md R71). It is LD.U16 on the words; the range check stays and cannot fail. -/
def execLdWords (vs : List Word) (s : State) : Host.Outcome State Fault Refusal :=
  perform (load Config.thisHardware .words (vs.map fun v => (v.toNat : Int))) s

end Sys2Proof.Machine
end

