-- ==== Sys2Proof/Machine/Order.lean ====
section
/-! DEFINITION. The two order transforms (43_order_transforms.md R111, R112). -/

namespace Sys2Proof.Machine

/-- SWAP.BYTES (43_order_transforms.md R111). -/
def execSwapBytes (s : State) : Host.Outcome State Fault Refusal := perform orderSwapBytes s

/-- SWAP.WORDS (43_order_transforms.md R112, with the policy of this hardware). -/
def execSwapWords (s : State) : Host.Outcome State Fault Refusal := perform (orderSwapWords Config.thisHardware) s

end Sys2Proof.Machine
end

