-- ==== Sys2Proof/Machine/RawText.lean ====
section
/-! DEFINITION. The raw-byte, hexadecimal and text views (42_raw_hex_text.md R100 to R107). -/

namespace Sys2Proof.Machine

/-- RD.BYTES (42_raw_hex_text.md R100). -/
def execRdBytes (s : State) : Host.Outcome State Fault Refusal := perform viewBytes s

/-- RD.HEX (42_raw_hex_text.md R101). -/
def execRdHex (s : State) : Host.Outcome State Fault Refusal := perform viewHex s

/-- RD.TEXT enc (42_raw_hex_text.md R103). -/
def execRdText (enc : TextEnc) (s : State) : Host.Outcome State Fault Refusal := perform (viewText (encodingMap enc)) s

end Sys2Proof.Machine
end

