-- ==== Sys2Proof/Machine/View.lean ====
section
/-! DEFINITION. The nine scalar views (41_view_unpack.md R82 to R90): each the shared view of its own type. -/

namespace Sys2Proof.Machine

/-- RD.U16 (41_view_unpack.md R82). -/
def execRdU16 (s : State) : Host.Outcome State Fault Refusal := perform (viewScalars .u16) s

/-- RD.I16 (41_view_unpack.md R83). -/
def execRdI16 (s : State) : Host.Outcome State Fault Refusal := perform (viewScalars .i16) s

/-- RD.U32 (41_view_unpack.md R84). -/
def execRdU32 (s : State) : Host.Outcome State Fault Refusal := perform (viewScalars .u32) s

/-- RD.I32 (41_view_unpack.md R85). -/
def execRdI32 (s : State) : Host.Outcome State Fault Refusal := perform (viewScalars .i32) s

/-- RD.U64 (41_view_unpack.md R86). -/
def execRdU64 (s : State) : Host.Outcome State Fault Refusal := perform (viewScalars .u64) s

/-- RD.I64 (41_view_unpack.md R87). -/
def execRdI64 (s : State) : Host.Outcome State Fault Refusal := perform (viewScalars .i64) s

/-- RD.F32 (41_view_unpack.md R88). -/
def execRdF32 (s : State) : Host.Outcome State Fault Refusal := perform (viewScalars .f32) s

/-- RD.F64 (41_view_unpack.md R89). -/
def execRdF64 (s : State) : Host.Outcome State Fault Refusal := perform (viewScalars .f64) s

/-- RD.WORDS (41_view_unpack.md R90). -/
def execRdWords (s : State) : Host.Outcome State Fault Refusal := perform (viewScalars .words) s

end Sys2Proof.Machine
end

