-- ==== Sys2Proof/Machine/Dispatch.lean ====
section
/-! DEFINITION. The dispatch: one arm per command, each one call of its meaning. -/

namespace Sys2Proof.Machine

def exec (i : Instr) (s : State) : Host.Outcome State Fault Refusal :=
  match i with
  | .ldU16 vs => Sys2Proof.Machine.execLdU16 vs s
  | .ldI16 vs => Sys2Proof.Machine.execLdI16 vs s
  | .ldU32 vs => Sys2Proof.Machine.execLdU32 vs s
  | .ldI32 vs => Sys2Proof.Machine.execLdI32 vs s
  | .ldU64 vs => Sys2Proof.Machine.execLdU64 vs s
  | .ldI64 vs => Sys2Proof.Machine.execLdI64 vs s
  | .ldF32 vs => Sys2Proof.Machine.execLdF32 vs s
  | .ldF64 vs => Sys2Proof.Machine.execLdF64 vs s
  | .ldWords vs => Sys2Proof.Machine.execLdWords vs s
  | .rdU16 => Sys2Proof.Machine.execRdU16 s
  | .rdI16 => Sys2Proof.Machine.execRdI16 s
  | .rdU32 => Sys2Proof.Machine.execRdU32 s
  | .rdI32 => Sys2Proof.Machine.execRdI32 s
  | .rdU64 => Sys2Proof.Machine.execRdU64 s
  | .rdI64 => Sys2Proof.Machine.execRdI64 s
  | .rdF32 => Sys2Proof.Machine.execRdF32 s
  | .rdF64 => Sys2Proof.Machine.execRdF64 s
  | .rdWords => Sys2Proof.Machine.execRdWords s
  | .rdBytes => Sys2Proof.Machine.execRdBytes s
  | .rdHex => Sys2Proof.Machine.execRdHex s
  | .rdText enc => Sys2Proof.Machine.execRdText enc s
  | .swapBytes => Sys2Proof.Machine.execSwapBytes s
  | .swapWords => Sys2Proof.Machine.execSwapWords s

end Sys2Proof.Machine
end

