-- ==== Sys2Proof/Machine/Step.lean ====
section
/-! DEFINITION. One step: the block takes the oldest event the host has issued and completes it. -/

namespace Sys2Proof.Machine

/-- One command transaction, whole: decoded and executed, or answered IllegalCommand (30_encoding.md R42, 20_memory.md R29). -/
def runCommand (c : Transaction) (s : State) : Host.Outcome State Fault Refusal :=
  match decode c with
  | .ok i => exec i s
  | .error _ => perform illegalCommand s

/-- One step. With nothing pending the block is idle and keeps the buffer (60_exceptions.md R137, 70_reset_and_hazards.md R155;
log entry 5). -/
def step (s : State) : Host.Outcome State Fault Refusal :=
  match s.pending with
  | [] => .next s
  | .command c :: rest => runCommand c { s with pending := rest }
  | .reset _ :: rest => .next (resetEvent { s with pending := rest })

/-- The state whose next step takes the command that a number of the opcode table stands for (log entry 7). -/
def State.withFetchWord (s : State) (nbits w : Nat) : State :=
  { s with pending := .command (tableTransaction nbits w) :: s.pending }

end Sys2Proof.Machine
end

