-- ==== Sys2Proof/Machine/Assembler.lean ====
section
/-! DEFINITION. The assembler spelling of commands and its pseudo-forms (30_encoding.md R55, R56). It stands in front of the command
port: no step uses it. What the rule leaves open of blanks, letter case and blank lines is log entry 18. -/

namespace Sys2Proof.Machine

/-- Why a line is refused by the assembler. -/
inductive AsmError where
  /-- The mnemonic is not one of the 23. -/
  | unknownMnemonic
  /-- The operand is missing, superfluous or not of the form the mnemonic takes. -/
  | badOperand
  /-- A value the operand element cannot hold, or more elements than the count word can say. -/
  | operandTooLarge
  deriving DecidableEq, Repr

/-- A single value or a sequence: "accept both forms" (30_encoding.md R56 (a)). -/
inductive ScalarOrSequence (α : Type) where
  | scalar (v : α)
  | sequence (vs : List α)
  deriving DecidableEq, Repr

/-- "A scalar single-value input is treated as a one-element sequence" (30_encoding.md R56 (a)). -/
def ScalarOrSequence.toSequence {α : Type} : ScalarOrSequence α → List α
  | .scalar v => [v]
  | .sequence vs => vs

/-- A number as written: decimal, or hexadecimal with `0x`. Float operands are written in the second form only. -/
inductive Literal where
  | decimal (v : Int)
  | hex (v : Nat)
  deriving DecidableEq, Repr

/-- The value of a literal. -/
def Literal.value : Literal → Int
  | .decimal v => v
  | .hex v => v

/-! ### Reading characters -/

/-- A blank inside a line. -/
def isBlank (c : Char) : Bool := c == ' ' || c == '\t'

/-- Drops blanks at both ends. -/
def trimBlanks (cs : List Char) : List Char := ((cs.dropWhile isBlank).reverse.dropWhile isBlank).reverse

/-- `;` starts a comment. -/
def dropComment (cs : List Char) : List Char := cs.takeWhile (· != ';')

/-- The pieces between commas. -/
def splitCommas : List Char → List (List Char)
  | [] => [[]]
  | c :: cs =>
    if c == ',' then [] :: splitCommas cs
    else
      match splitCommas cs with
      | [] => [[c]]
      | piece :: pieces => (c :: piece) :: pieces

/-- The digit characters in the order of their values, once with each case of letter (log entry 18). -/
def digitRows : List (List Char) := ["0123456789ABCDEF".toList, "0123456789abcdef".toList]

/-- The value of a digit: its place in a row of digits, where that is below the base. -/
def digitValue (base : Nat) (c : Char) : Option Nat :=
  (digitRows.findSome? fun row => row.findIdx? (· == c)).filter (· < base)

/-- The number the digits spell after the value `acc`. -/
def digitsFrom (base : Nat) : Nat → List Char → Option Nat
  | acc, [] => some acc
  | acc, c :: cs =>
    match digitValue base c with
    | some d => digitsFrom base (base * acc + d) cs
    | none => none

/-- A number of at least one digit. -/
def readDigits (base : Nat) (cs : List Char) : Option Nat := if cs = [] then none else digitsFrom base 0 cs

/-- A literal: decimal with an optional minus sign, or `0x` and hexadecimal digits (30_encoding.md R55). -/
def readLiteral : List Char → Option Literal
  | '0' :: 'x' :: cs => (readDigits 16 cs).map .hex
  | '-' :: cs => (readDigits 10 cs).map fun n : Nat => .decimal (-(n : Int))
  | cs => (readDigits 10 cs).map fun n : Nat => .decimal n

/-- All literals of a sequence, or none if one of them is not a literal. -/
def readLiterals : List (List Char) → Option (List Literal)
  | [] => some []
  | p :: ps =>
    match readLiteral (trimBlanks p), readLiterals ps with
    | some l, some ls => some (l :: ls)
    | _, _ => none

/-- What stands inside the brackets of a sequence. -/
def readSequence (inner : List Char) : Option (ScalarOrSequence Literal) :=
  if trimBlanks inner = [] then some (.sequence [])
  else (readLiterals (splitCommas inner)).map .sequence

/-- A load operand: a bracketed sequence or a single value (30_encoding.md R55, R56). -/
def readOperand (cs : List Char) : Option (ScalarOrSequence Literal) :=
  match cs with
  | '[' :: rest =>
    match rest.reverse with
    | ']' :: inner => readSequence inner.reverse
    | _ => none
  | _ => (readLiteral cs).map .scalar

/-! ### Building commands -/

/-- The integer operands, if every one fits the 80-bit element and their count fits the count word. -/
def asmInts (ls : List Literal) : Except AsmError (List Int) :=
  let vs := ls.map Literal.value
  if intOperandsFit vs then .ok vs else .error .operandTooLarge

/-- The words of LD.WORDS: 0 to 65535 each. -/
def asmWords (ls : List Literal) : Except AsmError (List Word) :=
  let vs := ls.map Literal.value
  if countFits vs.length && vs.all (fun v => decide (0 ≤ v ∧ v ≤ 65535)) then .ok (vs.map (BitVec.ofInt 16))
  else .error .operandTooLarge

/-- The bit pattern a float operand is written as: hexadecimal only (30_encoding.md R55). -/
def asmPattern : Literal → Option Nat
  | .hex v => some v
  | .decimal _ => none

/-- All patterns, or none if one operand is not written as a pattern. -/
def asmPatterns : List Literal → Option (List Nat)
  | [] => some []
  | l :: ls =>
    match asmPattern l, asmPatterns ls with
    | some v, some vs => some (v :: vs)
    | _, _ => none

/-- The float operands of a width. -/
def asmFloats (bits : Nat) (ls : List Literal) : Except AsmError (List (BitVec bits)) :=
  match asmPatterns ls with
  | none => .error .badOperand
  | some vs =>
    if countFits vs.length && vs.all (fun v => decide (v < 2 ^ bits)) then .ok (vs.map (BitVec.ofNat bits))
    else .error .operandTooLarge

/-- The type suffixes a load takes. -/
def typeSuffix (cs : List Char) : Option ScalarType :=
  if cs = "U16".toList then some .u16
  else if cs = "I16".toList then some .i16
  else if cs = "U32".toList then some .u32
  else if cs = "I32".toList then some .i32
  else if cs = "U64".toList then some .u64
  else if cs = "I64".toList then some .i64
  else if cs = "F32".toList then some .f32
  else if cs = "F64".toList then some .f64
  else if cs = "WORDS".toList then some .words
  else none

/-- The load of a type on written operands. -/
def asmLoad (T : ScalarType) (ls : List Literal) : Except AsmError Instr :=
  match T with
  | .u16 => (asmInts ls).map .ldU16
  | .i16 => (asmInts ls).map .ldI16
  | .u32 => (asmInts ls).map .ldU32
  | .i32 => (asmInts ls).map .ldI32
  | .u64 => (asmInts ls).map .ldU64
  | .i64 => (asmInts ls).map .ldI64
  | .f32 => (asmFloats 32 ls).map .ldF32
  | .f64 => (asmFloats 64 ls).map .ldF64
  | .words => (asmWords ls).map .ldWords

/-- The view of a type, BYTES, HEX and TEXT apart. -/
def asmScalarView : ScalarType → Instr
  | .u16 => .rdU16
  | .i16 => .rdI16
  | .u32 => .rdU32
  | .i32 => .rdI32
  | .u64 => .rdU64
  | .i64 => .rdI64
  | .f32 => .rdF32
  | .f64 => .rdF64
  | .words => .rdWords

/-- `enc`: 0 or LATIN1, 1 or ASCII (30_encoding.md R55). -/
def asmEncoding (cs : List Char) : Option TextEnc :=
  if cs = "0".toList ∨ cs = "LATIN1".toList then some .latin1
  else if cs = "1".toList ∨ cs = "ASCII".toList then some .ascii
  else none

/-- A command without an operand. -/
def asmPlain (i : Instr) (operand : List Char) : Except AsmError Instr :=
  if operand = [] then .ok i else .error .badOperand

/-- A load line. -/
def asmLoadLine (suffix operand : List Char) : Except AsmError Instr :=
  match typeSuffix suffix with
  | none => .error .unknownMnemonic
  | some T =>
    match readOperand operand with
    | none => .error .badOperand
    | some o => asmLoad T o.toSequence

/-- A view line. -/
def asmViewLine (suffix operand : List Char) : Except AsmError Instr :=
  if suffix = "BYTES".toList then asmPlain .rdBytes operand
  else if suffix = "HEX".toList then asmPlain .rdHex operand
  else if suffix = "TEXT".toList then
    match asmEncoding operand with
    | none => .error .badOperand
    | some enc => .ok (.rdText enc)
  else
    match typeSuffix suffix with
    | none => .error .unknownMnemonic
    | some T => asmPlain (asmScalarView T) operand

/-- The command of a line that is not blank: mnemonic, then operand. -/
def asmCommand (mnemonic operand : List Char) : Except AsmError Instr :=
  match mnemonic with
  | 'L' :: 'D' :: '.' :: suffix => asmLoadLine suffix operand
  | 'R' :: 'D' :: '.' :: suffix => asmViewLine suffix operand
  | _ =>
    if mnemonic = "SWAP.BYTES".toList then asmPlain .swapBytes operand
    else if mnemonic = "SWAP.WORDS".toList then asmPlain .swapWords operand
    else .error .unknownMnemonic

/-- One line: at most one command (30_encoding.md R55). A line of blanks or comment only has none. -/
def assembleLine (line : List Char) : Except AsmError (Option Instr) :=
  let body := trimBlanks (dropComment line)
  if body = [] then .ok none
  else
    let mnemonic := body.takeWhile (fun c => !isBlank c)
    let operand := trimBlanks (body.dropWhile (fun c => !isBlank c))
    match asmCommand mnemonic operand with
    | .ok i => .ok (some i)
    | .error e => .error e

/-- A program text, line by line: the transactions of its commands in the same order (30_encoding.md R55). -/
def assemble : List (List Char) → Except AsmError (List Transaction)
  | [] => .ok []
  | line :: lines =>
    match assembleLine line, assemble lines with
    | .ok none, .ok ts => .ok ts
    | .ok (some i), .ok ts => .ok (encode i :: ts)
    | .error e, _ => .error e
    | _, .error e => .error e

end Sys2Proof.Machine
end

