-- ==== Sys2Proof/Machine/FloatReading.lean ====
section
/-! DEFINITION. What a float pattern means as a number (41_view_unpack.md R91). No command uses it: the block moves the pattern and
never looks inside it (R68, R92). -/

namespace Sys2Proof.Machine

/-- A float layout: exponent and fraction widths, and the bias (41_view_unpack.md R91). -/
structure FloatLayout where
  expBits : Nat
  fracBits : Nat
  bias : Nat
  deriving DecidableEq, Repr

/-- binary32. -/
def binary32 : FloatLayout := { expBits := 8, fracBits := 23, bias := 127 }

/-- binary64. -/
def binary64 : FloatLayout := { expBits := 11, fracBits := 52, bias := 1023 }

/-- The datum a pattern stands for; `negative` is the sign bit. A finite non-zero datum is `(-1)^s * significand * 2^exponent`. -/
inductive FloatDatum where
  | zero (negative : Bool)
  | subnormal (negative : Bool) (significand : Nat) (exponent : Int)
  | normal (negative : Bool) (significand : Nat) (exponent : Int)
  | infinity (negative : Bool)
  | nan (negative : Bool) (quiet : Bool) (payload : Nat)
  deriving DecidableEq, Repr

/-- The sign bit of a pattern. -/
def floatNegative (L : FloatLayout) (u : Nat) : Bool := u / 2 ^ (L.expBits + L.fracBits) % 2 == 1

/-- The biased exponent field. -/
def floatExponent (L : FloatLayout) (u : Nat) : Nat := u / 2 ^ L.fracBits % 2 ^ L.expBits

/-- The fraction field. -/
def floatFraction (L : FloatLayout) (u : Nat) : Nat := u % 2 ^ L.fracBits

/-- The reading of a pattern (41_view_unpack.md R91). -/
def readFloat (L : FloatLayout) (u : Nat) : FloatDatum :=
  let s := floatNegative L u
  let e := floatExponent L u
  let f := floatFraction L u
  if e = 0 then
    if f = 0 then .zero s else .subnormal s f (1 - (L.bias : Int) - (L.fracBits : Int))
  else if e = 2 ^ L.expBits - 1 then
    if f = 0 then .infinity s else .nan s (f / 2 ^ (L.fracBits - 1) == 1) (f % 2 ^ (L.fracBits - 1))
  else .normal s (2 ^ L.fracBits + f) ((e : Int) - (L.bias : Int) - (L.fracBits : Int))

end Sys2Proof.Machine
end

