-- ==== Sys2Proof/Machine/Flags.lean ====
section
/-! DEFINITION. The block has no flags (10_state.md R14); the status of a command stands in its response and nowhere else. This
file holds the status word and the word after it (30_encoding.md R45 to R47, 60_exceptions.md R120). -/

namespace Sys2Proof.Machine

/-- The status code of an error (60_exceptions.md R120). -/
def errorCode : CommandError → Nat
  | .rangeError _ => 1
  | .decodeError _ => 2
  | .lengthError _ => 3
  | .capacityError _ => 4
  | .illegalCommand => 5

/-- The `info` of an error (30_encoding.md R47). -/
def errorInfo : CommandError → Nat
  | .rangeError k => k
  | .decodeError i => i
  | .lengthError n => n
  | .capacityError n => n
  | .illegalCommand => 0

/-- The count of an OK response (30_encoding.md R46). -/
def resultCount : Result → Nat
  | .stored n => n
  | .scalars _ vs => vs.length
  | .bytes bs => bs.length
  | .chars cs => cs.length

/-- The status code of a response, 0 for OK (60_exceptions.md R120). -/
def statusCode : Response → Nat
  | .ok _ => 0
  | .error e => errorCode e

/-- What the response's second word holds: the count, or the `info` (30_encoding.md R45). -/
def secondField : Response → Nat
  | .ok r => resultCount r
  | .error e => errorInfo e

end Sys2Proof.Machine
end

