-- ==== Sys2Proof/Machine/Response.lean ====
section
/-! DEFINITION. The words of a response on the response port (30_encoding.md R45 to R47). -/

namespace Sys2Proof.Machine

/-- Bytes two per word, the byte at the lower offset in bits 15:8; a lone last byte is followed by 0x00 (30_encoding.md R46). -/
def wordsOfBytes : List Byte → List Word
  | a :: b :: rest => (a ++ b : BitVec 16) :: wordsOfBytes rest
  | [a] => [(a ++ 0x00#8 : BitVec 16)]
  | [] => []

/-- The payload of a scalar value: its pattern, most significant word first (30_encoding.md R46). -/
def scalarWords (T : ScalarType) (v : Int) : List Word := wordsOfBytes (beBytes (scalarWidth T) (encScalar T v))

/-- The payload of an OK response (30_encoding.md R46). A code point above 65535, which only a map that this hardware does not have
could give (42_raw_hex_text.md R107), is cut to 16 bits: the model's choice (log entry 8). -/
def resultPayload : Result → List Word
  | .stored _ => []
  | .scalars T vs => vs.flatMap (scalarWords T)
  | .bytes bs => wordsOfBytes bs
  | .chars cs => cs.map (BitVec.ofNat 16)

/-- The payload of a response; an error response has none (30_encoding.md R47). -/
def responsePayload : Response → List Word
  | .ok r => resultPayload r
  | .error _ => []

/-- The words of a response: status, count or `info`, payload (30_encoding.md R45). A count or `info` above 65535, which no
reachable state has, is cut to 16 bits (log entry 8). -/
def responseWords (r : Response) : Transaction :=
  BitVec.ofNat 16 (statusCode r) :: BitVec.ofNat 16 (secondField r) :: responsePayload r

end Sys2Proof.Machine
end

