-- ==== Sys2Proof/Safety.lean ====
section
/-! DEFINITION. What claims about the machine speak of: the buffer invariant, errors among responses, the host's commands, a run. -/

namespace Sys2Proof.Machine

/-- The buffer invariant of a machine with parameters `c` (10_state.md R11): even length, at most the capacity. -/
abbrev BufferInv (c : Config) (m : Memory) : Prop := m.length % 2 = 0 ∧ m.length ≤ c.capBytes

/-- The invariant of this hardware's states. -/
abbrev StateInv (s : State) : Prop := BufferInv Config.thisHardware s.buf

/-- The response is an error (60_exceptions.md R120). -/
def isErrorResponse : Response → Bool
  | .ok _ => false
  | .error _ => true

/-- The commands among the host's events: each is owed exactly one response (30_encoding.md R35). -/
def commandsIn (es : List HostEvent) : Nat :=
  es.countP fun e => match e with
    | .command _ => true
    | .reset _ => false

/-- The commands that only read the buffer (41_view_unpack.md R80). -/
def isView : Instr → Bool
  | .ldU16 _ => false
  | .ldI16 _ => false
  | .ldU32 _ => false
  | .ldI32 _ => false
  | .ldU64 _ => false
  | .ldI64 _ => false
  | .ldF32 _ => false
  | .ldF64 _ => false
  | .ldWords _ => false
  | .rdU16 => true
  | .rdI16 => true
  | .rdU32 => true
  | .rdI32 => true
  | .rdU64 => true
  | .rdI64 => true
  | .rdF32 => true
  | .rdF64 => true
  | .rdWords => true
  | .rdBytes => true
  | .rdHex => true
  | .rdText _ => true
  | .swapBytes => false
  | .swapWords => false

/-- A run of `n` steps that neither faults nor refuses and ends in a state that meets the invariant. -/
def SafeRun (n : Nat) (s : State) : Prop := ∃ t, Host.Core.run Sys2Proof.core n s = .next t ∧ StateInv t

end Sys2Proof.Machine
end

