-- ==== Sys2Proof/Certificates/Slice0/Obligations.lean ====
section
/-! DEFINITION. The statements for the provers. The first part spells out, in the words of the rules and not through the model's
own operations, the shapes several statements share; the obligations follow. -/

namespace Sys2Proof.Statements

open Sys2Proof Sys2Proof.Machine

/-- The state with one more response and nothing else changed. -/
def answered (s : State) (r : Response) : State := { s with responses := s.responses ++ [r] }

/-- The value of the byte at an offset. -/
def byteVal (s : State) (off : Nat) : Nat := ((s.readByte off).getD 0).toNat

/-- The big-endian value of the `w` bytes from an offset (20_memory.md R23). -/
def chunkVal (s : State) (off w : Nat) : Nat := (List.range w).foldl (fun acc j => 256 * acc + byteVal s (off + j)) 0

/-- Byte `j` of the `w`-byte big-endian two's-complement form of `v`, `v[8(w-j)-1 : 8(w-1-j)]`. -/
def packedByte (w j : Nat) (v : Int) : Byte := BitVec.ofInt 8 (v / 2 ^ (8 * (w - 1 - j)))

/-- The signed reading of an `n`-bit pattern: itself below half the range, less `2^n` otherwise. -/
def signedReading (n u : Nat) : Int := if u < 2 ^ (n - 1) then (u : Int) else (u : Int) - 2 ^ n

/-- A load that succeeds: the buffer holds exactly the elements in input order, each big-endian in `w` bytes, the answer is the
length in words, and nothing else changes. `val` reads an operand as an integer. -/
def LoadStores {α : Type} (mk : List α → Instr) (w : Nat) (val : α → Int) (vs : List α) (s : State) : Prop :=
  ∃ t, exec (mk vs) s = .next t ∧ t.pending = s.pending ∧
    t.responses = s.responses ++ [.ok (.stored (vs.length * w / 2))] ∧
    t.buf.length = vs.length * w ∧
    ∀ k v, vs[k]? = some v → ∀ j, j < w → t.readByte (k * w + j) = some (packedByte w j (val v))

/-- The `ow` words of an operand element, most significant first: word `j` is bits `16(ow-j)-1` to `16(ow-1-j)` of the operand's
two's-complement pattern (30_encoding.md R38, R39). -/
def elementWords (ow : Nat) (v : Int) : List Word := (List.range ow).map fun j => BitVec.ofInt 16 (v / 2 ^ (16 * (ow - 1 - j)))

/-- The encoding of a load: header, count, and the elements in input order, `ow` words each (30_encoding.md R37). `val` reads an
operand as an integer. -/
def LoadEncoding {α : Type} (mk : List α → Instr) (hdr : Word) (ow : Nat) (val : α → Int) : Prop :=
  ∀ vs : List α, encode (mk vs) = hdr :: BitVec.ofNat 16 vs.length :: vs.flatMap fun v => elementWords ow (val v)

/-- The rule of an integer load of width `w` and range `lo` to `hi` (40_load_pack.md R61 to R67): encoding; success; CapacityError
when the packed size passes 256 bytes, whatever the values; RangeError at the first value out of range. -/
def IntegerLoad (mk : List Int → Instr) (hdr : Word) (w : Nat) (lo hi : Int) : Prop :=
  LoadEncoding mk hdr 5 id ∧
  ∀ (vs : List Int) (s : State),
    (vs.length * w ≤ 256 → (∀ v ∈ vs, lo ≤ v ∧ v ≤ hi) → LoadStores mk w id vs s) ∧
    (256 < vs.length * w → exec (mk vs) s = .next (answered s (.error (.capacityError vs.length)))) ∧
    (vs.length * w ≤ 256 → ∀ k v, vs[k]? = some v → ¬ (lo ≤ v ∧ v ≤ hi) →
      (∀ j u, j < k → vs[j]? = some u → lo ≤ u ∧ u ≤ hi) →
      exec (mk vs) s = .next (answered s (.error (.rangeError k))))

/-- The rule of a load of bit patterns (40_load_pack.md R69, R70, R71): every pattern is stored as given, only the capacity can
refuse it. -/
def PatternLoad {n : Nat} (mk : List (BitVec n) → Instr) (hdr : Word) (ow w : Nat) : Prop :=
  LoadEncoding mk hdr ow (fun v => (v.toNat : Int)) ∧
  ∀ (vs : List (BitVec n)) (s : State),
    (vs.length * w ≤ 256 → LoadStores mk w (fun v => (v.toNat : Int)) vs s) ∧
    (256 < vs.length * w → exec (mk vs) s = .next (answered s (.error (.capacityError vs.length))))

/-- The rule of a scalar view of width `w` (41_view_unpack.md R81): one header word; from every state the answer is the list of the
`floor(len/w)` chunk values under `dec`, the payload is the bytes of those chunks two per word, and nothing but the list of
responses changes. -/
def ScalarView (i : Instr) (hdr : Word) (T : ScalarType) (w : Nat) (dec : Nat → Int) : Prop :=
  encode i = [hdr] ∧
  ∀ s : State, ∃ vs payload,
    exec i s = .next (answered s (.ok (.scalars T vs))) ∧
    vs.length = s.buf.length / w ∧
    (∀ k, k < s.buf.length / w → vs[k]? = some (dec (chunkVal s (k * w) w))) ∧
    responseWords (.ok (.scalars T vs)) = 0#16 :: BitVec.ofNat 16 (s.buf.length / w) :: payload ∧
    payload.length = s.buf.length / w * w / 2 ∧
    ∀ k, k < s.buf.length / w * w / 2 → payload[k]? = some (BitVec.ofNat 16 (chunkVal s (2 * k) 2))

/-- The sixteen digit characters, `0` to `9` and `A` to `F` (42_raw_hex_text.md R102). -/
def digitCodes : List CodePoint :=
  [0x30, 0x31, 0x32, 0x33, 0x34, 0x35, 0x36, 0x37, 0x38, 0x39, 0x41, 0x42, 0x43, 0x44, 0x45, 0x46]

/-- The rule of RD.TEXT on a buffer valid under an encoding whose valid bytes are those below `bound`, each its own code point
(42_raw_hex_text.md R103 to R106): all bytes decoded, then exactly the trailing U+0000 characters dropped. -/
def TextView (enc : TextEnc) (hdr : Word) (bound : Nat) : Prop :=
  encode (.rdText enc) = [hdr] ∧
  ∀ s : State, (∀ b ∈ s.buf, b.toNat < bound) → ∃ cs,
    exec (.rdText enc) s = .next (answered s (.ok (.chars cs))) ∧
    responseWords (.ok (.chars cs)) = 0#16 :: BitVec.ofNat 16 cs.length :: cs.map (BitVec.ofNat 16) ∧
    cs.length ≤ s.buf.length ∧
    (∀ k, k < cs.length → cs[k]? = some (byteVal s k)) ∧
    (∀ k, cs.length ≤ k → k < s.buf.length → byteVal s k = 0) ∧
    cs.getLast? ≠ some 0

/-- The statuses a command can end in on this hardware (60_exceptions.md R126, codes of R120). -/
def allowedStatuses : Instr → List Nat
  | .ldU16 _ => [0, 1, 4]
  | .ldI16 _ => [0, 1, 4]
  | .ldU32 _ => [0, 1, 4]
  | .ldI32 _ => [0, 1, 4]
  | .ldU64 _ => [0, 1, 4]
  | .ldI64 _ => [0, 1, 4]
  | .ldF32 _ => [0, 4]
  | .ldF64 _ => [0, 4]
  | .ldWords _ => [0, 4]
  | .rdU16 => [0]
  | .rdI16 => [0]
  | .rdU32 => [0]
  | .rdI32 => [0]
  | .rdU64 => [0]
  | .rdI64 => [0]
  | .rdF32 => [0]
  | .rdF64 => [0]
  | .rdWords => [0]
  | .rdBytes => [0]
  | .rdHex => [0]
  | .rdText .latin1 => [0]
  | .rdText .ascii => [0, 2]
  | .swapBytes => [0]
  | .swapWords => [0]

/-- CapacityError exactly above `most` elements, and then nothing is written (60_exceptions.md R124). -/
def CapacityAt {α : Type} (mk : List α → Instr) (most : Nat) : Prop :=
  ∀ (vs : List α) (s : State),
    (most < vs.length → exec (mk vs) s = .next (answered s (.error (.capacityError vs.length)))) ∧
    (vs.length ≤ most → ∃ t r, exec (mk vs) s = .next t ∧ t.responses = s.responses ++ [r] ∧
      ∀ n, r ≠ .error (.capacityError n))

/-- Loading values and then viewing them by the same type gives them back (40_load_pack.md R75). -/
def RoundTrip {α : Type} (ld : List α → Instr) (rd : Instr) (T : ScalarType) (w : Nat) (val : α → Int)
    (lo hi : Int) : Prop :=
  ∀ (vs : List α) (s : State), vs.length * w ≤ 256 → (∀ v ∈ vs, lo ≤ val v ∧ val v ≤ hi) →
    ∃ t, exec (ld vs) s = .next t ∧ exec rd t = .next (answered t (.ok (.scalars T (vs.map val))))

/-- The loop of writes that rule R111 (43_order_transforms.md) gives for SWAP.BYTES, over the pairs 0 to n - 1. -/
def swapBytesLoop (old : Memory) : Memory :=
  (List.range (old.length / 2)).foldl
    (fun new k => memWrite (2 * k) (memRead (2 * k + 1) 1 old ++ memRead (2 * k) 1 old) new) old

/-- The loop of writes that rule R112 (43_order_transforms.md) gives for SWAP.WORDS, over the groups 0 to g - 1. -/
def swapWordsLoop (old : Memory) : Memory :=
  (List.range (old.length / 4)).foldl
    (fun new j => memWrite (4 * j) (memRead (4 * j + 2) 2 old ++ memRead (4 * j) 2 old) new) old

/-- What a block with the step function `f` makes of a list of commands: the fold of the list over `f`, and the responses in order
(20_memory.md R30). -/
def foldCommands (f : Transaction → Memory → Completion) : Memory → List Transaction → Memory × List Response
  | m, [] => (m, [])
  | m, c :: cs =>
    let rest := foldCommands f (f c m).buf cs
    (rest.1, (f c m).response :: rest.2)

/-- The value of an operand element of five words as R38 reads it. -/
def fiveWordValue (e : Word × Word × Word × Word × Word) : Int :=
  signedReading 80
    (((((e.1.toNat * 65536 + e.2.1.toNat) * 65536 + e.2.2.1.toNat) * 65536 + e.2.2.2.1.toNat) * 65536) + e.2.2.2.2.toNat)

/-- A load of this header reads its data words as five-word elements in input order (30_encoding.md R37, R38). -/
def ReadsFiveWordElements (mk : List Int → Instr) (hdr : Word) : Prop :=
  ∀ es : List (Word × Word × Word × Word × Word), es.length ≤ 65535 →
    decode (hdr :: BitVec.ofNat 16 es.length :: es.flatMap fun e => [e.1, e.2.1, e.2.2.1, e.2.2.2.1, e.2.2.2.2])
      = .ok (mk (es.map fiveWordValue))

/-! What R55 writes, spelled out: operands, lines. -/

/-- An operand as R55 writes it: decimal digits with an optional minus sign, or `0x` and hexadecimal digits; each digit by its
value. -/
inductive WrittenOperand where
  | decimal (negative : Bool) (digits : List Nat)
  | hex (digits : List Nat)
  deriving DecidableEq, Repr

/-- The operand has a digit, and every digit is one of its base. -/
def WrittenOperand.valid : WrittenOperand → Bool
  | .decimal _ ds => !ds.isEmpty && ds.all (· < 10)
  | .hex ds => !ds.isEmpty && ds.all (· < 16)

/-- The characters of the operand. -/
def WrittenOperand.chars : WrittenOperand → List Char
  | .decimal negative ds => (if negative then ['-'] else []) ++ ds.map fun d => Char.ofNat (digitCodes.getD d 0)
  | .hex ds => ['0', 'x'] ++ ds.map fun d => Char.ofNat (digitCodes.getD d 0)

/-- The number the operand stands for. -/
def WrittenOperand.number : WrittenOperand → Int
  | .decimal negative ds =>
    let n : Nat := ds.foldl (fun acc d => 10 * acc + d) 0
    if negative then -(n : Int) else (n : Int)
  | .hex ds => ((ds.foldl (fun acc d => 16 * acc + d) 0 : Nat) : Int)

/-- The operand is written as a bit pattern, as R55 asks of F32 and F64. -/
def WrittenOperand.isHex : WrittenOperand → Bool
  | .decimal _ _ => false
  | .hex _ => true

/-- `LD.<T> [v0, v1, ..., vN-1]`, as R55 writes it. -/
def loadLine (mnemonic : String) (os : List WrittenOperand) : List Char :=
  mnemonic.toList ++ " [".toList ++ List.intercalate ", ".toList (os.map WrittenOperand.chars) ++ "]".toList

/-- `LD.<T> v`, the pseudo-form of R56 (a). -/
def scalarLine (mnemonic : String) (o : WrittenOperand) : List Char := mnemonic.toList ++ " ".toList ++ o.chars

/-- The line of an integer or word load stands for the load of the numbers written, where they lie from `lo` to `hi`, the
values the operand element holds, and the count fits the count word. -/
def LoadLineStandsFor {α : Type} (mnemonic : String) (mk : List α → Instr) (read : Int → α) (lo hi : Int)
    (form : WrittenOperand → Bool) : Prop :=
  ∀ os : List WrittenOperand, (∀ o ∈ os, o.valid = true ∧ form o = true ∧ lo ≤ o.number ∧ o.number ≤ hi) → os.length ≤ 65535 →
    assembleLine (loadLine mnemonic os) = .ok (some (mk (os.map fun o => read o.number)))

end Sys2Proof.Statements

open Sys2Proof Sys2Proof.Machine Sys2Proof.Statements

/-! ### Reset, step and run -/

/-- 70_reset_and_hazards.md R145, 10_state.md R19: reset empties the buffer and answers nothing. That the later events stay pending
and the earlier responses stay in place is the model's reading (log entry 6), not R145's words. -/
def Obligations.ResetEmptiesBufferWithoutResponse : Prop :=
  State.reset.buf = [] ∧
  ∀ (s : State) (inProgress : Option Transaction) (rest : List HostEvent), s.pending = .reset inProgress :: rest →
    step s = .next { buf := [], pending := rest, responses := s.responses }

/-- 10_state.md R11, at reset. -/
def Obligations.BufferInvariantHoldsAtReset : Prop :=
  State.reset.buf.length % 2 = 0 ∧ State.reset.buf.length ≤ 256

/-- 10_state.md R11: every step keeps the length even and within the capacity. -/
def Obligations.StepKeepsBufferInvariant : Prop :=
  ∀ s t : State, s.buf.length % 2 = 0 → s.buf.length ≤ 256 → step s = .next t →
    t.buf.length % 2 = 0 ∧ t.buf.length ≤ 256

/-- The oldest pending command, decoded, is what a step executes. -/
def Obligations.StepRunsDecodedCommand : Prop :=
  ∀ (s : State) (c : Transaction) (rest : List HostEvent) (i : Instr),
    s.pending = .command c :: rest → decode c = .ok i → step s = exec i { s with pending := rest }

/-- 60_exceptions.md R125: words that are no command are answered IllegalCommand, info 0, and write nothing. -/
def Obligations.IllegalWordsAreAnsweredAndWriteNothing : Prop :=
  (∀ (s : State) (c : Transaction) (rest : List HostEvent) (e : Illegal),
    s.pending = .command c :: rest → decode c = .error e →
    step s = .next { buf := s.buf, pending := rest, responses := s.responses ++ [.error .illegalCommand] }) ∧
  responseWords (.error .illegalCommand) = [0x0005#16, 0x0000#16]

/-- With no command pending the block stays as it is (model's reading, log entry 5). -/
def Obligations.IdleStepChangesNothing : Prop := ∀ s : State, s.pending = [] → step s = .next s

/-- Every step goes on, takes at most one event, and adds exactly one response for a command and none otherwise. For a command
this is R35, R129 and R154; that an idle step answers the same state (log entry 5) and that a reset keeps the later events and
the earlier responses (log entry 6) are the model's choices. -/
def Obligations.EveryCommandGetsOneResponse : Prop :=
  ∀ s : State, ∃ t rs, step s = .next t ∧ t.pending = s.pending.tail ∧ t.responses = s.responses ++ rs ∧
    rs.length = commandsIn (s.pending.take 1)

/-- A run over everything pending ends with nothing pending and one response per command, and keeps the invariant. Where the list
holds resets, that a reset keeps the later events and the earlier responses is the model's reading (log entry 6). -/
def Obligations.RunAnswersEveryCommand : Prop :=
  ∀ s : State, ∃ t rs, Host.Core.run core s.pending.length s = .next t ∧ t.pending = [] ∧
    t.responses = s.responses ++ rs ∧ rs.length = commandsIn s.pending ∧ (StateInv s → StateInv t)

/-- 20_memory.md R30: what the block does on the first commands does not depend on the later ones. Where the lists hold resets
(70_reset_and_hazards.md R145, R155), that a reset leaves the later events pending is the model's reading (log entry 6), not a
consequence of R30 and R29, which speak of commands. -/
def Obligations.LaterCommandsDoNotAffectEarlierOnes : Prop :=
  ∀ (m : Memory) (rs : List Response) (es later : List HostEvent), ∃ t,
    Host.Core.run core es.length { buf := m, pending := es, responses := rs } = .next t ∧
    Host.Core.run core es.length { buf := m, pending := es ++ later, responses := rs } = .next { t with pending := later }

/-- 20_memory.md R30: there is one step function of the block, from a command and the buffer to the new buffer and the response;
a step applies it, and a run over a list of commands is its fold over the list. So the buffer is the whole state (10_state.md R10):
nothing else a step is given has a part in what the command does. -/
def Obligations.BufferIsTheFoldOfTheCommands : Prop :=
  ∃ f : Transaction → Memory → Completion,
    (∀ (c : Transaction) (m : Memory) (later : List HostEvent) (rs : List Response),
      step { buf := m, pending := .command c :: later, responses := rs }
        = .next { buf := (f c m).buf, pending := later, responses := rs ++ [(f c m).response] }) ∧
    ∀ (m : Memory) (cs : List Transaction) (rs : List Response),
      Host.Core.run core cs.length { buf := m, pending := cs.map .command, responses := rs }
        = .next { buf := (foldCommands f m cs).1, pending := [], responses := rs ++ (foldCommands f m cs).2 }

/-- Every command answers a next state that keeps the pending events and the earlier responses and adds one response. -/
def Obligations.EveryCommandCompletesWithItsFrame : Prop :=
  ∀ (i : Instr) (s : State), ∃ t r, exec i s = .next t ∧ t.pending = s.pending ∧ t.responses = s.responses ++ [r] ∧
    (isView i = true → ∀ off, t.readByte off = s.readByte off)

/-- 41_view_unpack.md R80: a view's answer is a function of the buffer and its own operands alone, and it writes nothing. -/
def Obligations.ViewsReadTheBufferAlone : Prop :=
  ∀ (i : Instr) (m : Memory), isView i = true → ∃ r, ∀ (p : List HostEvent) (rs : List Response),
    exec i { buf := m, pending := p, responses := rs } = .next { buf := m, pending := p, responses := rs ++ [r] }

/-! ### Encoding -/

/-- Decoding an encoded well-formed command gives it back, for every command and every operand. -/
def Obligations.DecodeOfEncodeIsTheCommand : Prop :=
  ∀ i : Instr, i.wellFormed = true → decode (encode i) = .ok i

/-- A word sequence that decodes is the encoding of the command it decodes to, and that command is well-formed. -/
def Obligations.EncodeOfDecodeIsTheWords : Prop :=
  ∀ (c : Transaction) (i : Instr), decode c = .ok i → encode i = c ∧ i.wellFormed = true

/-- Words written out from the opcode map, one or more of each format. -/
def Obligations.WrittenWordsDecode : Prop :=
  decode [0x1100, 0x0002, 0x0000, 0x0000, 0x0000, 0x0000, 0x0005, 0xFFFF, 0xFFFF, 0xFFFF, 0xFFFF, 0x7FFF]
      = .ok (.ldI16 [5, -32769]) ∧
  decode [0x1600, 0x0001, 0x3F80, 0x0000] = .ok (.ldF32 [0x3F800000#32]) ∧
  decode [0x1800, 0x0002, 0x0001, 0x0002] = .ok (.ldWords [0x0001, 0x0002]) ∧
  decode [0x2700] = .ok .rdF64 ∧ decode [0x2B01] = .ok (.rdText .ascii) ∧ decode [0x3100] = .ok .swapWords

/-- 30_encoding.md R43: every reserved or malformed word sequence is illegal; fields written as arithmetic on the header. -/
def Obligations.ReservedEncodingsAreIllegal : Prop :=
  (∃ e, decode [] = .error e) ∧
  ∀ (h : Word) (rest : List Word) (cls typ arg : Nat),
    h.toNat = 4096 * cls + 256 * typ + arg → typ < 16 → arg < 256 →
    ((cls = 0 ∨ 4 ≤ cls) ∨ (cls = 1 ∧ 9 ≤ typ) ∨ (cls = 2 ∧ 12 ≤ typ) ∨ (cls = 3 ∧ 2 ≤ typ) ∨
      (arg ≠ 0 ∧ ¬ (cls = 2 ∧ typ = 11)) ∨ (cls = 2 ∧ typ = 11 ∧ 2 ≤ arg) ∨
      ((cls = 2 ∨ cls = 3) ∧ rest ≠ []) ∨ (cls = 1 ∧ rest = []) ∨
      (cls = 1 ∧ typ ≤ 5 ∧ ∃ n data, rest = n :: data ∧ data.length ≠ n.toNat * 5) ∨
      (cls = 1 ∧ typ = 6 ∧ ∃ n data, rest = n :: data ∧ data.length ≠ n.toNat * 2) ∨
      (cls = 1 ∧ typ = 7 ∧ ∃ n data, rest = n :: data ∧ data.length ≠ n.toNat * 4) ∨
      (cls = 1 ∧ typ = 8 ∧ ∃ n data, rest = n :: data ∧ data.length ≠ n.toNat)) →
    ∃ e, decode (h :: rest) = .error e

/-- 30_encoding.md R38: the five words of an operand element, most significant first, are the 80-bit two's-complement pattern of the
operand value, in all six integer loads; and element k of a load is its own five words in input order, for every list of
elements (R37). -/
def Obligations.IntegerElementIsSignExtendedEightyBits : Prop :=
  (∀ e : Word × Word × Word × Word × Word, -(2 ^ 79) ≤ fiveWordValue e ∧ fiveWordValue e < 2 ^ 79) ∧
  ReadsFiveWordElements .ldU16 0x1000 ∧ ReadsFiveWordElements .ldI16 0x1100 ∧ ReadsFiveWordElements .ldU32 0x1200 ∧
  ReadsFiveWordElements .ldI32 0x1300 ∧ ReadsFiveWordElements .ldU64 0x1400 ∧ ReadsFiveWordElements .ldI64 0x1500

/-- 30_encoding.md R39: an F32 element is two words, the first holding bits 31:16; an F64 element four words, the first holding
bits 63:48; a WORDS element is the word itself; for every list of elements, in input order (R37); and none of them is ever out of
range. -/
def Obligations.PatternElementsAreMostSignificantWordFirst : Prop :=
  (∀ es : List (Word × Word), es.length ≤ 65535 →
    decode (0x1600 :: BitVec.ofNat 16 es.length :: es.flatMap fun e => [e.1, e.2])
      = .ok (.ldF32 (es.map fun e => BitVec.ofNat 32 (e.1.toNat * 65536 + e.2.toNat)))) ∧
  (∀ es : List (Word × Word × Word × Word), es.length ≤ 65535 →
    decode (0x1700 :: BitVec.ofNat 16 es.length :: es.flatMap fun e => [e.1, e.2.1, e.2.2.1, e.2.2.2])
      = .ok (.ldF64 (es.map fun e => BitVec.ofNat 64
          (((e.1.toNat * 65536 + e.2.1.toNat) * 65536 + e.2.2.1.toNat) * 65536 + e.2.2.2.toNat)))) ∧
  (∀ ws : List Word, ws.length ≤ 65535 → decode (0x1800 :: BitVec.ofNat 16 ws.length :: ws) = .ok (.ldWords ws)) ∧
  ∀ (i : Instr) (s : State), ((∃ vs, i = .ldF32 vs) ∨ (∃ vs, i = .ldF64 vs) ∨ ∃ vs, i = .ldWords vs) →
    ∃ t r, exec i s = .next t ∧ t.responses = s.responses ++ [r] ∧ ∀ k, r ≠ .error (.rangeError k)

/-! ### Loads -/

/-- 40_load_pack.md R62 to R67, with the element words of the encoding. -/
def Obligations.IntegerLoadsPackOrRefuse : Prop :=
  IntegerLoad .ldU16 0x1000 2 0 65535 ∧
  IntegerLoad .ldI16 0x1100 2 (-32768) 32767 ∧
  IntegerLoad .ldU32 0x1200 4 0 4294967295 ∧
  IntegerLoad .ldI32 0x1300 4 (-2147483648) 2147483647 ∧
  IntegerLoad .ldU64 0x1400 8 0 18446744073709551615 ∧
  IntegerLoad .ldI64 0x1500 8 (-9223372036854775808) 9223372036854775807

/-- 40_load_pack.md R69, R70, with the element words of the encoding. -/
def Obligations.FloatLoadsStorePatternsUnchanged : Prop :=
  PatternLoad .ldF32 0x1600 2 4 ∧ PatternLoad .ldF64 0x1700 4 8

/-- 40_load_pack.md R71: the data words of LD.WORDS are the register words themselves; it packs them, and does what LD.U16 does on
the same values. -/
def Obligations.LoadWordsIsLoadU16OnWords : Prop :=
  (∀ vs : List Word, encode (.ldWords vs) = 0x1800 :: BitVec.ofNat 16 vs.length :: vs) ∧
  PatternLoad .ldWords 0x1800 1 2 ∧
  ∀ (ws : List Word) (s : State), exec (.ldWords ws) s = exec (.ldU16 (ws.map fun w => (w.toNat : Int))) s

/-- 40_load_pack.md R73: the empty sequence empties the buffer, for every load. -/
def Obligations.EmptyLoadsEmptyTheBuffer : Prop :=
  ∀ (s : State) (i : Instr),
    i ∈ [.ldU16 [], .ldI16 [], .ldU32 [], .ldI32 [], .ldU64 [], .ldI64 [], .ldF32 [], .ldF64 [], .ldWords []] →
    exec i s = .next { buf := [], pending := s.pending, responses := s.responses ++ [.ok (.stored 0)] }

/-- 60_exceptions.md R124, with the element counts it gives. -/
def Obligations.CapacityErrorExactlyAboveTheCount : Prop :=
  CapacityAt .ldU16 128 ∧ CapacityAt .ldI16 128 ∧ CapacityAt .ldWords 128 ∧
  CapacityAt .ldU32 64 ∧ CapacityAt .ldI32 64 ∧ CapacityAt .ldF32 64 ∧
  CapacityAt .ldU64 32 ∧ CapacityAt .ldI64 32 ∧ CapacityAt .ldF64 32

/-- A load keeps no byte of the old buffer: from two states that differ in the buffer only, a load that answers OK in one ends in
the same state in both, and so does the load issued twice. -/
def Obligations.LoadResultIgnoresOldBuffer : Prop :=
  ∀ (i : Instr) (s t : State) (m : Memory) (n : Nat), isView i = false → i ≠ .swapBytes → i ≠ .swapWords →
    exec i s = .next t → t.responses = s.responses ++ [.ok (.stored n)] →
    exec i { s with buf := m } = .next t ∧
    exec i t = .next { t with responses := t.responses ++ [.ok (.stored n)] }

/-! ### Scalar views -/

/-- 41_view_unpack.md R82 to R87. -/
def Obligations.IntegerViewsUnpackChunks : Prop :=
  ScalarView .rdU16 0x2000 .u16 2 (fun u => u) ∧ ScalarView .rdI16 0x2100 .i16 2 (signedReading 16) ∧
  ScalarView .rdU32 0x2200 .u32 4 (fun u => u) ∧ ScalarView .rdI32 0x2300 .i32 4 (signedReading 32) ∧
  ScalarView .rdU64 0x2400 .u64 8 (fun u => u) ∧ ScalarView .rdI64 0x2500 .i64 8 (signedReading 64)

/-- 41_view_unpack.md R88, R89: the pattern of each chunk, bit for bit. -/
def Obligations.FloatViewsReturnPatterns : Prop :=
  ScalarView .rdF32 0x2600 .f32 4 (fun u => u) ∧ ScalarView .rdF64 0x2700 .f64 8 (fun u => u)

/-- 41_view_unpack.md R90. -/
def Obligations.ViewWordsReadsWords : Prop := ScalarView .rdWords 0x2800 .words 2 (fun u => u)

/-- 40_load_pack.md R75, 41_view_unpack.md R93: what a load stores, the view of the same type reads. -/
def Obligations.LoadThenViewRoundTrips : Prop :=
  RoundTrip .ldU16 .rdU16 .u16 2 id 0 65535 ∧
  RoundTrip .ldI16 .rdI16 .i16 2 id (-32768) 32767 ∧
  RoundTrip .ldU32 .rdU32 .u32 4 id 0 4294967295 ∧
  RoundTrip .ldI32 .rdI32 .i32 4 id (-2147483648) 2147483647 ∧
  RoundTrip .ldU64 .rdU64 .u64 8 id 0 18446744073709551615 ∧
  RoundTrip .ldI64 .rdI64 .i64 8 id (-9223372036854775808) 9223372036854775807 ∧
  RoundTrip .ldF32 .rdF32 .f32 4 (fun v => (v.toNat : Int)) 0 4294967295 ∧
  RoundTrip .ldF64 .rdF64 .f64 8 (fun v => (v.toNat : Int)) 0 18446744073709551615 ∧
  RoundTrip .ldWords .rdWords .words 2 (fun v => (v.toNat : Int)) 0 65535

/-- 41_view_unpack.md R94, 20_memory.md R26: one byte sequence under every lens; on every byte list, odd lengths included. -/
def Obligations.LensLawsOverOneBuffer : Prop :=
  ∀ m : Memory,
    view .i16 m = (view .u16 m).map (fun u => signedReading 16 u.toNat) ∧
    view .i32 m = (view .u32 m).map (fun u => signedReading 32 u.toNat) ∧
    view .i64 m = (view .u64 m).map (fun u => signedReading 64 u.toNat) ∧
    view .f32 m = view .u32 m ∧ view .f64 m = view .u64 m ∧ view .words m = view .u16 m ∧
    (view .u32 m).length = (view .u16 m).length / 2 ∧ (view .u64 m).length = (view .u32 m).length / 2 ∧
    (∀ k a b, k < (view .u32 m).length → (view .u16 m)[2 * k]? = some a → (view .u16 m)[2 * k + 1]? = some b →
      (view .u32 m)[k]? = some (65536 * a + b)) ∧
    (∀ k a b, k < (view .u64 m).length → (view .u32 m)[2 * k]? = some a → (view .u32 m)[2 * k + 1]? = some b →
      (view .u64 m)[k]? = some (4294967296 * a + b))

/-! ### Raw bytes, hexadecimal, text -/

/-- 42_raw_hex_text.md R100, with the payload of 30_encoding.md R46, odd lengths included. -/
def Obligations.BytesViewReturnsTheBuffer : Prop :=
  encode .rdBytes = [0x2900] ∧
  ∀ s : State, exec .rdBytes s = .next (answered s (.ok (.bytes s.buf))) ∧
    ∃ payload, responseWords (.ok (.bytes s.buf)) = 0#16 :: BitVec.ofNat 16 s.buf.length :: payload ∧
      payload.length = (s.buf.length + 1) / 2 ∧
      ∀ k, k < payload.length →
        payload[k]? = some (BitVec.ofNat 16 (256 * byteVal s (2 * k) + byteVal s (2 * k + 1)))

/-- 42_raw_hex_text.md R101, R102. -/
def Obligations.HexViewGroupsUppercaseDigits : Prop :=
  encode .rdHex = [0x2A00] ∧
  ∀ s : State, ∃ cs, exec .rdHex s = .next (answered s (.ok (.chars cs))) ∧
    responseWords (.ok (.chars cs)) = 0#16 :: BitVec.ofNat 16 cs.length :: cs.map (BitVec.ofNat 16) ∧
    cs.length = (if s.buf.length / 2 = 0 then 0 else 5 * (s.buf.length / 2) - 1) ∧
    (∀ k, k < s.buf.length / 2 →
      cs[5 * k]? = digitCodes[byteVal s (2 * k) / 16]? ∧
      cs[5 * k + 1]? = digitCodes[byteVal s (2 * k) % 16]? ∧
      cs[5 * k + 2]? = digitCodes[byteVal s (2 * k + 1) / 16]? ∧
      cs[5 * k + 3]? = digitCodes[byteVal s (2 * k + 1) % 16]?) ∧
    ∀ k, k + 1 < s.buf.length / 2 → cs[5 * k + 4]? = some 0x2D

/-- 42_raw_hex_text.md R103 to R106, 60_exceptions.md R122: every byte is valid under encoding 0 (the bound 256 is met by every
byte), a byte of 0x80 or more is invalid under encoding 1, and the first such byte is reported. -/
def Obligations.TextViewDecodesThenStrips : Prop :=
  TextView .latin1 0x2B00 256 ∧ TextView .ascii 0x2B01 128 ∧
  ∀ (s : State) (i : Nat) (b : Byte), s.buf[i]? = some b → 128 ≤ b.toNat →
    (∀ j c, j < i → s.buf[j]? = some c → c.toNat < 128) →
    exec (.rdText .ascii) s = .next (answered s (.error (.decodeError i)))

/-- 42_raw_hex_text.md R107: under any encoding's map the view decodes and then strips; where 0x00 and only 0x00 maps to U+0000
and every byte is valid, stripping the bytes first gives the same text. -/
def Obligations.AnyEncodingMapStripsAlike : Prop :=
  ∀ (map : Byte → Option CodePoint) (s : State), (∀ b, map b = some 0 ↔ b = 0) → (∀ b ∈ s.buf, (map b).isSome = true) →
    s.complete (viewText map s.buf) = answered s (.ok (.chars (((s.buf.reverse.dropWhile (· == 0)).reverse).map fun b => (map b).getD 0)))

/-! ### Order transforms -/

/-- 43_order_transforms.md R111. The answered count of an odd length, which no reachable buffer has, is rounded down by the model's
choice (log entry 19). -/
def Obligations.SwapBytesExchangesEveryPair : Prop :=
  encode .swapBytes = [0x3000] ∧
  ∀ s : State, ∃ t, exec .swapBytes s = .next t ∧ t.pending = s.pending ∧
    t.responses = s.responses ++ [.ok (.stored (s.buf.length / 2))] ∧ t.buf.length = s.buf.length ∧
    (∀ k, 2 * k + 1 < s.buf.length →
      t.readByte (2 * k) = s.readByte (2 * k + 1) ∧ t.readByte (2 * k + 1) = s.readByte (2 * k)) ∧
    (s.buf.length % 2 = 1 → t.readByte (s.buf.length - 1) = s.readByte (s.buf.length - 1))

/-- 43_order_transforms.md R112. The answered count of an odd length, which no reachable buffer has, is rounded down by the model's
choice (log entry 19). -/
def Obligations.SwapWordsExchangesWordsOfGroups : Prop :=
  encode .swapWords = [0x3100] ∧
  ∀ s : State, ∃ t, exec .swapWords s = .next t ∧ t.pending = s.pending ∧
    t.responses = s.responses ++ [.ok (.stored (s.buf.length / 2))] ∧ t.buf.length = s.buf.length ∧
    (∀ j, 4 * j + 3 < s.buf.length →
      t.readByte (4 * j) = s.readByte (4 * j + 2) ∧ t.readByte (4 * j + 1) = s.readByte (4 * j + 3) ∧
      t.readByte (4 * j + 2) = s.readByte (4 * j) ∧ t.readByte (4 * j + 3) = s.readByte (4 * j + 1)) ∧
    (∀ off, s.buf.length / 4 * 4 ≤ off → t.readByte off = s.readByte off)

/-- 43_order_transforms.md R113, 60_exceptions.md R123: the named alternative policy, for any capacity. The info of an odd length,
which no reachable buffer has, is rounded down by the model's choice (log entry 19). -/
def Obligations.StrictSwapWordsRejectsOddWordCount : Prop :=
  ∀ (cap : Nat) (s : State),
    (s.buf.length % 4 ≠ 0 → s.complete (orderSwapWords { capWords := cap, swapWordsPolicy := .strict } s.buf)
      = answered s (.error (.lengthError (s.buf.length / 2)))) ∧
    (s.buf.length % 4 = 0 → exec .swapWords s
      = .next (s.complete (orderSwapWords { capWords := cap, swapWordsPolicy := .strict } s.buf)))

/-- 43_order_transforms.md R110: the transforms permute the bytes, keep the length and answer it in words, without payload. The count
of an odd length, which no reachable buffer has, is rounded down by the model's choice (log entry 19). -/
def Obligations.SwapsPermuteTheBytes : Prop :=
  ∀ (s : State) (i : Instr), i = .swapBytes ∨ i = .swapWords →
    ∃ t, exec i s = .next t ∧ t.buf.Perm s.buf ∧ t.buf.length = s.buf.length ∧ t.pending = s.pending ∧
      t.responses = s.responses ++ [.ok (.stored (s.buf.length / 2))] ∧
      responseWords (.ok (.stored (s.buf.length / 2))) = [0x0000, BitVec.ofNat 16 (s.buf.length / 2)]

/-- 43_order_transforms.md R111, R112: the transforms are the rules' own loops of writes. -/
def Obligations.SwapsAreTheRulesWriteLoops : Prop :=
  ∀ m : Memory, swapPairs m = swapBytesLoop m ∧ swapGroups m = swapWordsLoop m

/-- 43_order_transforms.md R115: each swap is its own inverse, on every buffer, and a single one is not the identity function. -/
def Obligations.SwapsAreInvolutions : Prop :=
  ∀ i : Instr, i = .swapBytes ∨ i = .swapWords →
    (∀ s : State, ∃ t u, exec i s = .next t ∧ exec i t = .next u ∧ u.buf = s.buf) ∧
    (∃ s t : State, exec i s = .next t ∧ t.buf ≠ s.buf)

/-- 43_order_transforms.md R114: the two swaps commute, and on a complete group both orders reverse the four bytes. -/
def Obligations.SwapsCommuteAndReverseGroups : Prop :=
  ∀ s : State, ∃ a ab b ba,
    exec .swapWords s = .next a ∧ exec .swapBytes a = .next ab ∧
    exec .swapBytes s = .next b ∧ exec .swapWords b = .next ba ∧ ab.buf = ba.buf ∧
    ∀ j, 4 * j + 3 < s.buf.length →
      ab.readByte (4 * j) = s.readByte (4 * j + 3) ∧ ab.readByte (4 * j + 1) = s.readByte (4 * j + 2) ∧
      ab.readByte (4 * j + 2) = s.readByte (4 * j + 1) ∧ ab.readByte (4 * j + 3) = s.readByte (4 * j)

/-- 43_order_transforms.md R116: the four byte orders of a 32-bit value and the commands that bring each to big-endian. -/
def Obligations.FourByteOrdersReachBigEndian : Prop :=
  ∀ (b3 b2 b1 b0 : Byte) (p : List HostEvent) (rs : List Response),
    (∃ t, exec .swapBytes { buf := [b2, b3, b0, b1], pending := p, responses := rs } = .next t ∧
      t.buf = [b3, b2, b1, b0]) ∧
    (∃ t, exec .swapWords { buf := [b1, b0, b3, b2], pending := p, responses := rs } = .next t ∧
      t.buf = [b3, b2, b1, b0]) ∧
    (∃ t u, exec .swapBytes { buf := [b0, b1, b2, b3], pending := p, responses := rs } = .next t ∧
      exec .swapWords t = .next u ∧ u.buf = [b3, b2, b1, b0])

/-! ### Errors and responses -/

/-- 60_exceptions.md R131: a command that ends in an error writes no state. -/
def Obligations.FailedCommandsLeaveTheBuffer : Prop :=
  ∀ (s t : State) (e : CommandError), step s = .next t → t.responses = s.responses ++ [.error e] → t.buf = s.buf

/-- 60_exceptions.md R126: which command can end in which status. -/
def Obligations.EachCommandEndsInItsStatuses : Prop :=
  ∀ (i : Instr) (s : State), ∃ t r, exec i s = .next t ∧ t.responses = s.responses ++ [r] ∧
    statusCode r ∈ allowedStatuses i

/-- 60_exceptions.md R120, 30_encoding.md R47: the two words of every error response. -/
def Obligations.ErrorResponsesAreTwoWords : Prop :=
  ∀ n : Nat,
    responseWords (.error (.rangeError n)) = [1, BitVec.ofNat 16 n] ∧
    responseWords (.error (.decodeError n)) = [2, BitVec.ofNat 16 n] ∧
    responseWords (.error (.lengthError n)) = [3, BitVec.ofNat 16 n] ∧
    responseWords (.error (.capacityError n)) = [4, BitVec.ofNat 16 n] ∧
    responseWords (.error .illegalCommand) = [5, 0]

/-- 00_scope.md R5, 30_encoding.md R45, R46: from a state that meets the invariant, what a step answers fits its two words, so the
words carry the whole count or info. -/
def Obligations.CountsAndInfosFitOneWord : Prop :=
  ∀ (s t : State) (r : Response), s.buf.length % 2 = 0 → s.buf.length ≤ 256 → step s = .next t →
    t.responses = s.responses ++ [r] → secondField r ≤ 65535 ∧ statusCode r ≤ 5

/-- 10_state.md R11 and 00_scope.md R5 for every legal capacity and both policies: the operations that write keep the invariant,
and the longest response count, that of the hexadecimal text, fits one word. -/
def Obligations.EveryLegalConfigurationKeepsItsBounds : Prop :=
  ∀ (c : Config) (m : Memory), c.legal = true → BufferInv c m →
    (∀ (T : ScalarType) (vs : List Int), BufferInv c (load c T vs m).buf) ∧
    BufferInv c (orderSwapBytes m).buf ∧ BufferInv c (orderSwapWords c m).buf ∧
    (hexText m).length ≤ 65535

/-! ### The reading of float patterns, the assembler -/

/-- 41_view_unpack.md R91 in both precisions, fields given, and its check of 1.0. -/
def Obligations.FloatPatternReadingByFields : Prop :=
  (∀ (s : Bool) (e f : Nat), e < 256 → f < 8388608 →
    readFloat binary32 ((if s then 2147483648 else 0) + e * 8388608 + f) =
      if e = 0 then (if f = 0 then .zero s else .subnormal s f (-149))
      else if e = 255 then (if f = 0 then .infinity s else .nan s (decide (4194304 ≤ f)) (f % 4194304))
      else .normal s (8388608 + f) ((e : Int) - 150)) ∧
  (∀ (s : Bool) (e f : Nat), e < 2048 → f < 4503599627370496 →
    readFloat binary64 ((if s then 9223372036854775808 else 0) + e * 4503599627370496 + f) =
      if e = 0 then (if f = 0 then .zero s else .subnormal s f (-1074))
      else if e = 2047 then
        (if f = 0 then .infinity s else .nan s (decide (2251799813685248 ≤ f)) (f % 2251799813685248))
      else .normal s (4503599627370496 + f) ((e : Int) - 1075)) ∧
  readFloat binary32 0x3F800000 = .normal false 8388608 (-23)

/-- 30_encoding.md R55, R56: a line the assembler accepts is a command the port can carry, and its words decode to it. -/
def Obligations.AssembledLinesAreCarriedCommands : Prop :=
  ∀ (line : List Char) (i : Instr), assembleLine line = .ok (some i) → i.wellFormed = true ∧ decode (encode i) = .ok i

/-- 30_encoding.md R55: which command a line stands for. A load line with the operands written as R55 writes them, in range of the
operand element and within the count word, is the load of exactly those numbers in that order; every other line of R55's table is
its command; a comment changes no line; and a program's lines are its commands in the same order. That one blank stands after the
mnemonic and one after each comma is within log entry 18. -/
def Obligations.AssemblerLinesStandForTheirCommands : Prop :=
  LoadLineStandsFor "LD.U16" .ldU16 id (-(2 ^ 79)) (2 ^ 79 - 1) (fun _ => true) ∧
  LoadLineStandsFor "LD.I16" .ldI16 id (-(2 ^ 79)) (2 ^ 79 - 1) (fun _ => true) ∧
  LoadLineStandsFor "LD.U32" .ldU32 id (-(2 ^ 79)) (2 ^ 79 - 1) (fun _ => true) ∧
  LoadLineStandsFor "LD.I32" .ldI32 id (-(2 ^ 79)) (2 ^ 79 - 1) (fun _ => true) ∧
  LoadLineStandsFor "LD.U64" .ldU64 id (-(2 ^ 79)) (2 ^ 79 - 1) (fun _ => true) ∧
  LoadLineStandsFor "LD.I64" .ldI64 id (-(2 ^ 79)) (2 ^ 79 - 1) (fun _ => true) ∧
  LoadLineStandsFor "LD.F32" .ldF32 (BitVec.ofInt 32) 0 (2 ^ 32 - 1) WrittenOperand.isHex ∧
  LoadLineStandsFor "LD.F64" .ldF64 (BitVec.ofInt 64) 0 (2 ^ 64 - 1) WrittenOperand.isHex ∧
  LoadLineStandsFor "LD.WORDS" .ldWords (BitVec.ofInt 16) 0 65535 (fun _ => true) ∧
  (∀ p ∈ ([("RD.U16", .rdU16), ("RD.I16", .rdI16), ("RD.U32", .rdU32), ("RD.I32", .rdI32), ("RD.U64", .rdU64),
      ("RD.I64", .rdI64), ("RD.F32", .rdF32), ("RD.F64", .rdF64), ("RD.WORDS", .rdWords), ("RD.BYTES", .rdBytes),
      ("RD.HEX", .rdHex), ("RD.TEXT 0", .rdText .latin1), ("RD.TEXT LATIN1", .rdText .latin1),
      ("RD.TEXT 1", .rdText .ascii), ("RD.TEXT ASCII", .rdText .ascii), ("SWAP.BYTES", .swapBytes),
      ("SWAP.WORDS", .swapWords)] : List (String × Instr)), assembleLine p.1.toList = .ok (some p.2)) ∧
  (∀ line comment : List Char, assembleLine (line ++ ';' :: comment) = assembleLine line) ∧
  (∀ program : List (List Char × Instr), (∀ p ∈ program, assembleLine p.1 = .ok (some p.2)) →
    assemble (program.map Prod.fst) = .ok (program.map fun p => encode p.2))

/-- 30_encoding.md R56 (a): `LD.<T> v` is `LD.<T> [v]`, for every type and every operand R55 can write, whether the line is taken or
refused. -/
def Obligations.ScalarFormIsTheOneElementSequence : Prop :=
  ∀ m ∈ ["LD.U16", "LD.I16", "LD.U32", "LD.I32", "LD.U64", "LD.I64", "LD.F32", "LD.F64", "LD.WORDS"],
    ∀ o : WrittenOperand, o.valid = true → assembleLine (scalarLine m o) = assembleLine (loadLine m [o])
end

