-- ==== Sys2Proof/Laws/Bytes.lean ====
section
/-! SUPPORT. Big-endian packing and unpacking, two's complement, and the lengths they give. -/

namespace Sys2Proof.Machine

/-- `ube(s ++ [b]) = 256 * ube(s) + b` (00_scope.md section 5). -/
theorem ube_concat (bs : List Byte) (b : Byte) : ube (bs ++ [b]) = 256 * ube bs + b.toNat := by
  simp [ube]

@[simp] theorem beBytes_length (w u : Nat) : (beBytes w u).length = w := by simp [beBytes]

/-- Byte `k` of `be(u)` is `u[N-1-8k : N-8-8k]` (00_scope.md section 5). -/
theorem beBytes_getElem? (w u k : Nat) (h : k < w) :
    (beBytes w u)[k]? = some (BitVec.ofNat 8 (u / 2 ^ (8 * (w - 1 - k)))) := by
  simp [beBytes, h]

/-- The last byte of `be(u)` is `u[7:0]`, the others are `be` of the rest. -/
theorem beBytes_succ (w u : Nat) : beBytes (w + 1) u = beBytes w (u / 256) ++ [BitVec.ofNat 8 u] := by
  simp only [beBytes, List.range_succ, List.map_append, List.map_cons, List.map_nil]
  congr 1
  · apply List.map_congr_left
    intro k hk
    have hk : k < w := List.mem_range.mp hk
    rw [Nat.div_div_eq_div_mul]
    have : 8 * (w + 1 - 1 - k) = 8 + 8 * (w - 1 - k) := by omega
    rw [this, Nat.pow_add]
  · simp

/-- `ube(be_N(u)) = u` (00_scope.md section 5). -/
theorem ube_beBytes (w u : Nat) (h : u < 256 ^ w) : ube (beBytes w u) = u := by
  induction w generalizing u with
  | zero => simp [beBytes, ube] at *; omega
  | succ w ih =>
    have h' : u / 256 < 256 ^ w := by
      rw [Nat.pow_succ] at h
      exact Nat.div_lt_of_lt_mul (by omega)
    rw [beBytes_succ, ube_concat, ih _ h', BitVec.toNat_ofNat]
    omega

theorem scalarWidth_pos (T : ScalarType) : 0 < scalarWidth T := by cases T <;> decide

theorem scalarWidth_even (T : ScalarType) : scalarWidth T % 2 = 0 := by cases T <;> decide

/-- A pattern fits its type's bytes. -/
theorem encScalar_lt (T : ScalarType) (v : Int) : encScalar T v < 256 ^ scalarWidth T := by
  have h : ∀ n : Nat, twosComplement n v < 2 ^ n := by
    intro n
    unfold twosComplement
    have hp : (0 : Int) < 2 ^ n := by positivity
    have h1 := Int.emod_lt_of_pos v hp
    have h0 := Int.emod_nonneg v hp.ne'
    have : ((v % 2 ^ n).toNat : Int) < ((2 ^ n : Nat) : Int) := by
      rw [Int.toNat_of_nonneg h0]; exact_mod_cast h1
    exact_mod_cast this
  have hb : ∀ T : ScalarType, 2 ^ scalarBits T = 256 ^ scalarWidth T := by intro T; cases T <;> decide
  rw [← hb]
  exact h _

/-- `sext_N(tc_N(v)) = v` (00_scope.md section 5). -/
theorem signExtend_twosComplement (n : Nat) (v : Int) (hn : 0 < n) (h : -(2 ^ (n - 1)) ≤ v ∧ v < 2 ^ (n - 1)) :
    signExtend n (twosComplement n v) = v := by
  obtain ⟨m, rfl⟩ : ∃ m, n = m + 1 := ⟨n - 1, by omega⟩
  simp only [Nat.add_sub_cancel] at h
  have hpos : (0 : Int) < 2 ^ m := by positivity
  have h2 : (2 : Int) ^ (m + 1) = 2 * 2 ^ m := by ring
  unfold signExtend twosComplement
  simp only [Nat.add_sub_cancel]
  have hm : 0 ≤ v % 2 ^ (m + 1) := Int.emod_nonneg _ (by positivity)
  have hcast : ((v % 2 ^ (m + 1)).toNat < 2 ^ m) ↔ v % 2 ^ (m + 1) < 2 ^ m := by
    rw [← Int.ofNat_lt, Int.toNat_of_nonneg hm]; norm_cast
  rw [Int.toNat_of_nonneg hm]
  by_cases hv : 0 ≤ v
  · have he : v % 2 ^ (m + 1) = v := Int.emod_eq_of_lt hv (by omega)
    rw [if_pos (hcast.mpr (by omega)), he]
  · have he : v % 2 ^ (m + 1) = v + 2 ^ (m + 1) := by
      rw [← Int.add_emod_right, Int.emod_eq_of_lt] <;> omega
    rw [if_neg (by rw [hcast]; omega), he]; omega

/-- `dec_T(enc_T(v)) = v` for every value in range. -/
theorem decScalar_encScalar (T : ScalarType) (v : Int) (h : inRange T v = true) :
    decScalar T (encScalar T v) = v := by
  have h : scalarMin T ≤ v ∧ v ≤ scalarMax T := by simpa [inRange] using h
  cases hs : scalarSigned T with
  | true =>
    simp only [decScalar, encScalar, hs, if_true]
    refine signExtend_twosComplement _ v ?_ ?_ <;> cases T <;> try cases hs
    all_goals simp only [scalarBits, scalarMin, scalarMax] at h ⊢
    all_goals omega
  | false =>
    have hb : 0 ≤ v ∧ v < 2 ^ scalarBits T := by
      cases T <;> try cases hs
      all_goals simp only [scalarBits, scalarMin, scalarMax] at h ⊢
      all_goals omega
    simp only [decScalar, encScalar, hs, twosComplement, Bool.false_eq_true, if_false]
    rw [Int.emod_eq_of_lt hb.1 hb.2, Int.toNat_of_nonneg hb.1]

/-- A load writes whole elements (10_state.md R11). -/
@[simp] theorem pack_length (T : ScalarType) (vs : List Int) : (pack T vs).length = vs.length * scalarWidth T := by
  induction vs with
  | nil => simp [pack]
  | cons v vs ih =>
    simp only [pack, List.flatMap_cons, List.length_append, beBytes_length, List.length_cons] at ih ⊢
    rw [ih]; ring

@[simp] theorem pack_nil (T : ScalarType) : pack T [] = [] := rfl

theorem pack_cons (T : ScalarType) (v : Int) (vs : List Int) :
    pack T (v :: vs) = beBytes (scalarWidth T) (encScalar T v) ++ pack T vs := rfl

@[simp] theorem chunks_length (w : Nat) (m : Memory) : (chunks w m).length = m.length / w := by simp [chunks]

@[simp] theorem view_length (T : ScalarType) (m : Memory) : (view T m).length = m.length / scalarWidth T := by
  simp [view]

/-- Reading a chunk inside the sequence gives all its bytes. -/
theorem memRead_length (off n : Nat) (m : Memory) (h : off + n ≤ m.length) : (memRead off n m).length = n := by
  simp [memRead]; omega

theorem memRead_getElem? (off n : Nat) (m : Memory) (j : Nat) (h : j < n) : (memRead off n m)[j]? = m[off + j]? := by
  simp [memRead, h]

/-- Writing never changes the length (00_scope.md section 5). -/
@[simp] theorem memWrite_length (off : Nat) (bs : List Byte) (m : Memory) :
    (memWrite off bs m).length = m.length := by
  unfold memWrite
  split
  · simp; omega
  · rfl

/-- Reading back a write, and every other offset (00_scope.md section 5). -/
theorem memWrite_getElem? (off : Nat) (bs : List Byte) (m : Memory) (h : off + bs.length ≤ m.length) (i : Nat) :
    (memWrite off bs m)[i]? = if off ≤ i ∧ i < off + bs.length then bs[i - off]? else m[i]? := by
  unfold memWrite
  rw [if_pos h]
  by_cases h1 : i < off
  · rw [List.append_assoc, List.getElem?_append_left (by simp; omega), List.getElem?_take, if_pos h1, if_neg (by omega)]
  · by_cases h2 : i < off + bs.length
    · rw [if_pos ⟨by omega, h2⟩, List.getElem?_append_left (by simp; omega), List.getElem?_append_right (by simp; omega)]
      simp only [List.length_take]
      congr 1; omega
    · rw [if_neg (by omega), List.getElem?_append_right (by simp; omega), List.getElem?_drop]
      congr 1; simp; omega

@[simp] theorem swapPairs_length (m : Memory) : (swapPairs m).length = m.length := by
  induction m using swapPairs.induct with
  | case1 b0 b1 rest ih => simp [swapPairs, ih]
  | case2 rest h => rw [swapPairs.eq_2 _ h]

@[simp] theorem swapGroups_length (m : Memory) : (swapGroups m).length = m.length := by
  induction m using swapGroups.induct with
  | case1 b0 b1 b2 b3 rest ih => simp [swapGroups, ih]
  | case2 rest h => rw [swapGroups.eq_2 _ h]

/-- The value of `n` bytes fits them. -/
theorem ube_lt (bs : List Byte) : ube bs < 256 ^ bs.length := by
  induction bs using List.reverseRecOn with
  | nil => simp [ube]
  | append_singleton bs b ih =>
    rw [ube_concat]
    have := b.isLt
    simp [pow_succ]
    omega

/-- Packing the value of bytes gives the bytes back. -/
theorem beBytes_ube (bs : List Byte) : beBytes bs.length (ube bs) = bs := by
  induction bs using List.reverseRecOn with
  | nil => rfl
  | append_singleton bs b ih =>
    have := b.isLt
    rw [List.length_append, List.length_singleton, beBytes_succ, ube_concat]
    congr 1
    · rw [show (256 * ube bs + b.toNat) / 256 = ube bs by omega, ih]
    · congr 1; apply BitVec.eq_of_toNat_eq; simp; omega

/-- `enc_T(dec_T(u)) = u` for every pattern of the type's width. -/
theorem encScalar_decScalar (T : ScalarType) (u : Nat) (h : u < 2 ^ scalarBits T) :
    encScalar T (decScalar T u) = u := by
  unfold encScalar decScalar twosComplement
  generalize scalarBits T = n at *
  have hi : (u : Int) < 2 ^ n := by exact_mod_cast h
  have h0 : (0 : Int) ≤ u := by omega
  split
  · unfold signExtend
    split
    · rw [Int.emod_eq_of_lt h0 hi]; simp
    · rw [Int.sub_emod_right, Int.emod_eq_of_lt h0 hi]; simp
  · rw [Int.emod_eq_of_lt h0 hi]; simp

/-- The chunks put together are the bytes they cover. -/
theorem flatten_chunks (w n : Nat) (m : Memory) :
    ((List.range n).map fun k => memRead (k * w) w m).flatten = m.take (n * w) := by
  induction n with
  | zero => simp
  | succ n ih =>
    rw [List.range_succ, List.map_append, List.flatten_append, ih]
    simp only [List.map_cons, List.map_nil, List.flatten_cons, List.flatten_nil, List.append_nil, memRead]
    rw [Nat.succ_mul, List.take_add]

end Sys2Proof.Machine
end

