-- ==== Sys2Proof/Laws/Encoding.lean ====
section
/-! SUPPORT. The header fields, the operand elements and their lengths. -/

namespace Sys2Proof

theorem headerCls_headerWord (cls typ arg : Nat) (hc : cls < 16) (ht : typ < 16) (ha : arg < 256) :
    headerCls (headerWord cls typ arg) = cls := by
  simp [headerCls, headerWord, BitVec.extractLsb'_toNat, Nat.shiftRight_eq_div_pow]; omega

theorem headerTyp_headerWord (cls typ arg : Nat) (ht : typ < 16) (ha : arg < 256) :
    headerTyp (headerWord cls typ arg) = typ := by
  simp [headerTyp, headerWord, BitVec.extractLsb'_toNat, Nat.shiftRight_eq_div_pow]; omega

theorem headerArg_headerWord (cls typ arg : Nat) (ha : arg < 256) :
    headerArg (headerWord cls typ arg) = arg := by
  simp [headerArg, headerWord, BitVec.extractLsb'_toNat]; omega

/-- A header is its three fields. -/
theorem headerWord_fields (h : Word) : headerWord (headerCls h) (headerTyp h) (headerArg h) = h := by
  apply BitVec.eq_of_toNat_eq
  have := h.isLt
  simp [headerCls, headerTyp, headerArg, headerWord, BitVec.extractLsb'_toNat, Nat.shiftRight_eq_div_pow]
  omega

@[simp] theorem intElement_length (v : Int) : (intElement v).length = 5 := rfl
@[simp] theorem f32Element_length (v : BitVec 32) : (f32Element v).length = 2 := rfl
@[simp] theorem f64Element_length (v : BitVec 64) : (f64Element v).length = 4 := rfl

theorem flatMap_length_const {α β : Type} (f : α → List β) (n : Nat) (h : ∀ a, (f a).length = n) (l : List α) :
    (l.flatMap f).length = l.length * n := by
  induction l with
  | nil => simp
  | cons a l ih => simp [h, ih]; ring

/-- Five words put together and taken apart. -/
theorem intElement_value (v : Int) (h : elementFits v = true) (rest : List Word) :
    intElements (intElement v ++ rest) = v :: intElements rest := by
  have hv : -(2 ^ 79) ≤ v ∧ v < 2 ^ 79 := by simpa [elementFits] using h
  have key : ∀ p : BitVec 80, (p.extractLsb' 64 16 ++ p.extractLsb' 48 16 ++ p.extractLsb' 32 16 ++
      p.extractLsb' 16 16 ++ p.extractLsb' 0 16 : BitVec 80) = p := by
    intro p
    apply BitVec.eq_of_getLsbD_eq
    intro i hi
    simp only [BitVec.getLsbD_append, BitVec.getLsbD_extractLsb']
    by_cases h0 : i < 16
    · simp [h0]
    · by_cases h1 : i < 32
      · simp [h0, show i - 16 < 16 by omega, show 16 + (i - 16) = i by omega]
      · by_cases h2 : i < 48
        · simp [h0, show ¬ i - 16 < 16 by omega, show i - 16 - 16 < 16 by omega,
            show 32 + (i - 16 - 16) = i by omega]
        · by_cases h3 : i < 64
          · simp [h0, show ¬ i - 16 < 16 by omega, show ¬ i - 16 - 16 < 16 by omega,
              show i - 16 - 16 - 16 < 16 by omega, show 48 + (i - 16 - 16 - 16) = i by omega]
          · simp [h0, show ¬ i - 16 < 16 by omega, show ¬ i - 16 - 16 < 16 by omega,
              show ¬ i - 16 - 16 - 16 < 16 by omega, show i - 16 - 16 - 16 - 16 < 16 by omega,
              show 64 + (i - 16 - 16 - 16 - 16) = i by omega]
  show (_ :: _) = _
  congr 1
  rw [key, BitVec.toInt_ofInt, Int.bmod_eq_of_le] <;> omega

theorem f32Element_value (v : BitVec 32) (rest : List Word) :
    f32Elements (f32Element v ++ rest) = v :: f32Elements rest := by
  show (_ :: _) = _
  congr 1
  apply BitVec.eq_of_getLsbD_eq
  intro i hi
  simp only [BitVec.getLsbD_append, BitVec.getLsbD_extractLsb']
  by_cases h0 : i < 16
  · simp [h0]
  · simp [h0, show i - 16 < 16 by omega, show 16 + (i - 16) = i by omega]

theorem f64Element_value (v : BitVec 64) (rest : List Word) :
    f64Elements (f64Element v ++ rest) = v :: f64Elements rest := by
  show (_ :: _) = _
  congr 1
  apply BitVec.eq_of_getLsbD_eq
  intro i hi
  simp only [BitVec.getLsbD_append, BitVec.getLsbD_extractLsb']
  by_cases h0 : i < 16
  · simp [h0]
  · by_cases h1 : i < 32
    · simp [h0, show i - 16 < 16 by omega, show 16 + (i - 16) = i by omega]
    · by_cases h2 : i < 48
      · simp [h0, show ¬ i - 16 < 16 by omega, show i - 16 - 16 < 16 by omega,
          show 32 + (i - 16 - 16) = i by omega]
      · simp [h0, show ¬ i - 16 < 16 by omega, show ¬ i - 16 - 16 < 16 by omega,
          show i - 16 - 16 - 16 < 16 by omega, show 48 + (i - 16 - 16 - 16) = i by omega]

/-! ### Operand lists, both directions -/

theorem intElements_of_elements (vs : List Int) (h : ∀ v ∈ vs, elementFits v = true) : intElements (vs.flatMap intElement) = vs := by
  induction vs with
  | nil => rfl
  | cons v vs ih =>
    rw [List.flatMap_cons, intElement_value v (h v (by simp)), ih (fun u hu => h u (by simp [hu]))]
theorem f32Elements_of_elements (vs : List (BitVec 32)) : f32Elements (vs.flatMap f32Element) = vs := by
  induction vs with
  | nil => rfl
  | cons v vs ih => rw [List.flatMap_cons, f32Element_value, ih]
theorem f64Elements_of_elements (vs : List (BitVec 64)) : f64Elements (vs.flatMap f64Element) = vs := by
  induction vs with
  | nil => rfl
  | cons v vs ih => rw [List.flatMap_cons, f64Element_value, ih]

theorem extract_of_five (a b c d e : Word) :
    (a ++ b ++ c ++ d ++ e : BitVec 80).extractLsb' 64 16 = a ∧ (a ++ b ++ c ++ d ++ e : BitVec 80).extractLsb' 48 16 = b ∧
    (a ++ b ++ c ++ d ++ e : BitVec 80).extractLsb' 32 16 = c ∧ (a ++ b ++ c ++ d ++ e : BitVec 80).extractLsb' 16 16 = d ∧
    (a ++ b ++ c ++ d ++ e : BitVec 80).extractLsb' 0 16 = e := by
  refine ⟨?_, ?_, ?_, ?_, ?_⟩ <;> apply BitVec.eq_of_getLsbD_eq <;> intro i hi <;>
    simp only [BitVec.getLsbD_extractLsb', BitVec.getLsbD_append, hi, decide_true, Bool.true_and]
  · simp [show ¬ (64 + i < 16) by omega, show ¬ (64 + i - 16 < 16) by omega, show ¬ (64 + i - 16 - 16 < 16) by omega, show ¬ (64 + i - 16 - 16 - 16 < 16) by omega, show 64 + i - 16 - 16 - 16 - 16 = i by omega]
  · simp [show ¬ (48 + i < 16) by omega, show ¬ (48 + i - 16 < 16) by omega, show ¬ (48 + i - 16 - 16 < 16) by omega, show 48 + i - 16 - 16 - 16 = i by omega]; intros; omega
  · simp [show ¬ (32 + i < 16) by omega, show ¬ (32 + i - 16 < 16) by omega, show 32 + i - 16 - 16 = i by omega]; intros; omega
  · simp [show ¬ (16 + i < 16) by omega, show 16 + i - 16 = i by omega]; intros; omega
  · simp [hi]

theorem extract_of_four (a b c d : Word) :
    (a ++ b ++ c ++ d : BitVec 64).extractLsb' 48 16 = a ∧ (a ++ b ++ c ++ d : BitVec 64).extractLsb' 32 16 = b ∧
    (a ++ b ++ c ++ d : BitVec 64).extractLsb' 16 16 = c ∧ (a ++ b ++ c ++ d : BitVec 64).extractLsb' 0 16 = d := by
  refine ⟨?_, ?_, ?_, ?_⟩ <;> apply BitVec.eq_of_getLsbD_eq <;> intro i hi <;>
    simp only [BitVec.getLsbD_extractLsb', BitVec.getLsbD_append, hi, decide_true, Bool.true_and]
  · simp [show ¬ (48 + i < 16) by omega, show ¬ (48 + i - 16 < 16) by omega, show ¬ (48 + i - 16 - 16 < 16) by omega, show 48 + i - 16 - 16 - 16 = i by omega]
  · simp [show ¬ (32 + i < 16) by omega, show ¬ (32 + i - 16 < 16) by omega, show 32 + i - 16 - 16 = i by omega]; intros; omega
  · simp [show ¬ (16 + i < 16) by omega, show 16 + i - 16 = i by omega]; intros; omega
  · simp [hi]

theorem extract_of_two (a b : Word) : (a ++ b : BitVec 32).extractLsb' 16 16 = a ∧ (a ++ b : BitVec 32).extractLsb' 0 16 = b := by
  refine ⟨?_, ?_⟩ <;> apply BitVec.eq_of_getLsbD_eq <;> intro i hi <;>
    simp only [BitVec.getLsbD_extractLsb', BitVec.getLsbD_append, hi, decide_true, Bool.true_and]
  · simp [show ¬ (16 + i < 16) by omega, show 16 + i - 16 = i by omega]
  · simp [hi]

theorem elements_of_intElements (n : Nat) (data : List Word) (h : data.length = n * 5) :
    (intElements data).flatMap intElement = data ∧ (intElements data).length = n ∧ ∀ v ∈ intElements data, elementFits v = true := by
  induction n generalizing data with
  | zero => have : data = [] := by simpa using h
            subst this; exact ⟨rfl, rfl, by simp [intElements]⟩
  | succ n ih =>
    match data, h with
    | a :: b :: c :: d :: e :: rest, h =>
      obtain ⟨h1, h2, h3⟩ := ih rest (by simp at h; omega)
      have key : intElement (a ++ b ++ c ++ d ++ e : BitVec 80).toInt = [a, b, c, d, e] := by
        obtain ⟨h1, h2, h3, h4, h5⟩ := extract_of_five a b c d e
        simp only [intElement, BitVec.ofInt_toInt, h1, h2, h3, h4, h5]
      refine ⟨?_, ?_, ?_⟩
      · simp only [intElements, List.flatMap_cons, key, h1]; rfl
      · simp [intElements, h2]
      · intro v hv
        simp only [intElements, List.mem_cons] at hv
        obtain rfl | hv := hv
        · have := BitVec.toInt_lt (x := (a ++ b ++ c ++ d ++ e : BitVec 80))
          have := BitVec.le_toInt (x := (a ++ b ++ c ++ d ++ e : BitVec 80))
          simp only [elementFits, decide_eq_true_eq]
          constructor <;> omega
        · exact h3 v hv
    | [], h | [_], h | [_, _], h | [_, _, _], h | [_, _, _, _], h => simp at h <;> omega

theorem elements_of_f32Elements (n : Nat) (data : List Word) (h : data.length = n * 2) :
    (f32Elements data).flatMap f32Element = data ∧ (f32Elements data).length = n := by
  induction n generalizing data with
  | zero => have : data = [] := by simpa using h
            subst this; exact ⟨rfl, rfl⟩
  | succ n ih =>
    match data, h with
    | a :: b :: rest, h =>
      obtain ⟨h1, h2⟩ := ih rest (by simp at h; omega)
      have key : f32Element (a ++ b : BitVec 32) = [a, b] := by
        obtain ⟨h1, h2⟩ := extract_of_two a b
        simp only [f32Element, h1, h2]
      exact ⟨by simp only [f32Elements, List.flatMap_cons, key, h1]; rfl, by simp [f32Elements, h2]⟩
    | [], h | [_], h => simp at h <;> omega

theorem elements_of_f64Elements (n : Nat) (data : List Word) (h : data.length = n * 4) :
    (f64Elements data).flatMap f64Element = data ∧ (f64Elements data).length = n := by
  induction n generalizing data with
  | zero => have : data = [] := by simpa using h
            subst this; exact ⟨rfl, rfl⟩
  | succ n ih =>
    match data, h with
    | a :: b :: c :: d :: rest, h =>
      obtain ⟨h1, h2⟩ := ih rest (by simp at h; omega)
      have key : f64Element (a ++ b ++ c ++ d : BitVec 64) = [a, b, c, d] := by
        obtain ⟨h1, h2, h3, h4⟩ := extract_of_four a b c d
        simp only [f64Element, h1, h2, h3, h4]
      exact ⟨by simp only [f64Elements, List.flatMap_cons, key, h1]; rfl, by simp [f64Elements, h2]⟩
    | [], h | [_], h | [_, _], h | [_, _, _], h => simp at h <;> omega

end Sys2Proof
end

