-- ==== Sys2Proof/Laws/State.lean ====
section
/-! SUPPORT. One lemma per field per update of the state and per ending of a command, so that no later proof unfolds a record. -/

namespace Sys2Proof.Machine

@[simp] theorem setBuf_buf (m : Memory) (s : State) : (s.setBuf m).buf = m := rfl
@[simp] theorem setBuf_pending (m : Memory) (s : State) : (s.setBuf m).pending = s.pending := rfl
@[simp] theorem setBuf_responses (m : Memory) (s : State) : (s.setBuf m).responses = s.responses := rfl

@[simp] theorem complete_buf (k : Completion) (s : State) : (s.complete k).buf = k.buf := rfl
@[simp] theorem complete_pending (k : Completion) (s : State) : (s.complete k).pending = s.pending := rfl
@[simp] theorem complete_responses (k : Completion) (s : State) :
    (s.complete k).responses = s.responses ++ [k.response] := rfl

@[simp] theorem raise_buf (e : CommandError) (m : Memory) : (raise e m).buf = m := rfl
@[simp] theorem raise_response (e : CommandError) (m : Memory) : (raise e m).response = .error e := rfl

@[simp] theorem illegalCommand_buf (m : Memory) : (illegalCommand m).buf = m := rfl
@[simp] theorem illegalCommand_response (m : Memory) : (illegalCommand m).response = .error .illegalCommand := rfl

@[simp] theorem answer_buf (r : Result) (m : Memory) : (answer r m).buf = m := rfl
@[simp] theorem answer_response (r : Result) (m : Memory) : (answer r m).response = .ok r := rfl

@[simp] theorem storeAndAnswer_buf (m : Memory) : (storeAndAnswer m).buf = m := rfl
@[simp] theorem storeAndAnswer_response (m : Memory) : (storeAndAnswer m).response = .ok (.stored (m.length / 2)) := rfl

@[simp] theorem resetEvent_buf (s : State) : (resetEvent s).buf = [] := rfl
@[simp] theorem resetEvent_pending (s : State) : (resetEvent s).pending = s.pending := rfl
@[simp] theorem resetEvent_responses (s : State) : (resetEvent s).responses = s.responses := rfl

end Sys2Proof.Machine
end

