-- ==== Sys2Proof/Laws/Memory.lean ====
section
/-! SUPPORT. The buffer as (offset, byte) pairs is always in its one form, and determines the buffer (log entry 2). -/

namespace Sys2Proof.Machine

/-- Every buffer's pairs are in the one form: so every memory operation keeps it, and the reset state's buffer has it. -/
theorem Memory.wf_of_any (m : Memory) : Memory.wf m = true := by
  simp only [Memory.wf, Memory.cells, decide_eq_true_eq, List.map_map]
  apply List.ext_getElem
  · simp
  · intro i h1 h2
    simp

/-- The pairs determine the buffer: equal memories are equal data. -/
theorem Memory.cells_snd (m : Memory) : (Memory.cells m).map Prod.snd = m := by
  simp only [Memory.cells, List.map_map]
  apply List.ext_getElem
  · simp
  · intro i h1 h2
    simp

theorem Memory.cells_injective (m n : Memory) (h : Memory.cells m = Memory.cells n) : m = n := by
  rw [← Memory.cells_snd m, h, Memory.cells_snd]

/-- A byte is there exactly below the length (10_state.md R10). -/
theorem readByte_isSome (s : State) (off : Nat) : (s.readByte off).isSome = true ↔ off < s.buf.length := by
  simp [State.readByte]

end Sys2Proof.Machine
end

