-- ==== Sys2Proof/Laws/Ops.lean ====
section
/-! SUPPORT. What each shared operation can do, said once; later proofs cite these and do not unfold the operations. -/

namespace Sys2Proof.Machine

/-- A load refuses for capacity, refuses at the first value out of range, or stores the packing (40_load_pack.md R61). -/
theorem load_cases (c : Config) (T : ScalarType) (vs : List Int) (m : Memory) :
    (c.capBytes < vs.length * scalarWidth T ∧ load c T vs m = raise (.capacityError vs.length) m) ∨
    (vs.length * scalarWidth T ≤ c.capBytes ∧ ∃ k v, vs[k]? = some v ∧ inRange T v = false ∧
      (∀ j u, j < k → vs[j]? = some u → inRange T u = true) ∧ load c T vs m = raise (.rangeError k) m) ∨
    (vs.length * scalarWidth T ≤ c.capBytes ∧ (∀ v ∈ vs, inRange T v = true) ∧
      load c T vs m = storeAndAnswer (pack T vs)) := by
  unfold load
  by_cases hc : c.capBytes < vs.length * scalarWidth T
  · exact .inl ⟨hc, by rw [if_pos hc]⟩
  · rw [if_neg hc]
    right
    unfold firstOutOfRange
    cases hf : vs.findIdx? (fun v => !inRange T v) with
    | none =>
      refine .inr ⟨by omega, ?_, rfl⟩
      intro v hv
      have := List.findIdx?_eq_none_iff.mp hf v hv
      simpa using this
    | some k =>
      obtain ⟨hk, hp, hall⟩ := List.findIdx?_eq_some_iff_getElem.mp hf
      refine .inl ⟨by omega, k, vs[k], by simp, by simpa using hp, ?_, rfl⟩
      intro j u hj hu
      obtain ⟨hj', rfl⟩ := List.getElem?_eq_some_iff.mp hu
      simpa using hall j hj

/-- A load of values all in range within the capacity stores their packing. -/
theorem load_ok (c : Config) (T : ScalarType) (vs : List Int) (m : Memory)
    (hc : vs.length * scalarWidth T ≤ c.capBytes) (hr : ∀ v ∈ vs, inRange T v = true) :
    load c T vs m = storeAndAnswer (pack T vs) := by
  obtain ⟨h, -⟩ | ⟨-, k, v, hk, hv, -⟩ | ⟨-, -, h⟩ := load_cases c T vs m
  · omega
  · rw [hr v (List.mem_of_getElem? hk)] at hv; cases hv
  · exact h

/-- RD.TEXT answers the stripped text or ends in DecodeError at some offset; it never writes the buffer. -/
theorem viewText_cases (map : Byte → Option CodePoint) (m : Memory) :
    (∃ cs, textOf map m = .ok cs ∧ viewText map m = answer (.chars cs) m) ∨
    (∃ i, textOf map m = .error i ∧ viewText map m = raise (.decodeError i) m) := by
  unfold viewText
  cases h : textOf map m with
  | error i => exact .inr ⟨i, rfl, rfl⟩
  | ok cs => exact .inl ⟨cs, rfl, rfl⟩

/-- SWAP.WORDS swaps the complete groups, or, under `strict` only, refuses a length that is no multiple of 4. -/
theorem orderSwapWords_cases (c : Config) (m : Memory) :
    orderSwapWords c m = storeAndAnswer (swapGroups m) ∨
    (c.swapWordsPolicy = .strict ∧ m.length % 4 ≠ 0 ∧ orderSwapWords c m = raise (.lengthError (m.length / 2)) m) := by
  unfold orderSwapWords
  split
  · exact .inl rfl
  · split
    · rename_i hp h; exact .inr ⟨hp, h, rfl⟩
    · exact .inl rfl

/-- On this hardware SWAP.WORDS has no error. -/
@[simp] theorem orderSwapWords_thisHardware (m : Memory) :
    orderSwapWords Config.thisHardware m = storeAndAnswer (swapGroups m) := rfl

/-- What any command can leave of a buffer: answer without writing, end in an error without writing, or store a buffer and answer
its length in words. -/
inductive Effect (m : Memory) (k : Completion) : Prop where
  | answered (r : Result) (h : k = answer r m)
  | failed (e : CommandError) (h : k = raise e m)
  | stored (n : Memory) (h : k = storeAndAnswer n)

theorem load_effect (c : Config) (T : ScalarType) (vs : List Int) (m : Memory) : Effect m (load c T vs m) := by
  obtain ⟨-, h⟩ | ⟨-, k, v, -, -, -, h⟩ | ⟨-, -, h⟩ := load_cases c T vs m
  · exact .failed _ h
  · exact .failed _ h
  · exact .stored _ h

/-- Every command performs one function of the buffer, with one of the three effects. -/
theorem exec_effect (i : Instr) : ∃ f, (∀ s, exec i s = perform f s) ∧ ∀ m, Effect m (f m) := by
  have ofLoad (T : ScalarType) (vs : List Int) : ∀ m, Effect m (load Config.thisHardware T vs m) := load_effect _ _ _
  cases i with
  | ldU16 vs => exact ⟨_, fun _ => rfl, ofLoad _ _⟩
  | ldI16 vs => exact ⟨_, fun _ => rfl, ofLoad _ _⟩
  | ldU32 vs => exact ⟨_, fun _ => rfl, ofLoad _ _⟩
  | ldI32 vs => exact ⟨_, fun _ => rfl, ofLoad _ _⟩
  | ldU64 vs => exact ⟨_, fun _ => rfl, ofLoad _ _⟩
  | ldI64 vs => exact ⟨_, fun _ => rfl, ofLoad _ _⟩
  | ldF32 vs => exact ⟨_, fun _ => rfl, ofLoad _ _⟩
  | ldF64 vs => exact ⟨_, fun _ => rfl, ofLoad _ _⟩
  | ldWords vs => exact ⟨_, fun _ => rfl, ofLoad _ _⟩
  | rdU16 => exact ⟨_, fun _ => rfl, fun _ => .answered _ rfl⟩
  | rdI16 => exact ⟨_, fun _ => rfl, fun _ => .answered _ rfl⟩
  | rdU32 => exact ⟨_, fun _ => rfl, fun _ => .answered _ rfl⟩
  | rdI32 => exact ⟨_, fun _ => rfl, fun _ => .answered _ rfl⟩
  | rdU64 => exact ⟨_, fun _ => rfl, fun _ => .answered _ rfl⟩
  | rdI64 => exact ⟨_, fun _ => rfl, fun _ => .answered _ rfl⟩
  | rdF32 => exact ⟨_, fun _ => rfl, fun _ => .answered _ rfl⟩
  | rdF64 => exact ⟨_, fun _ => rfl, fun _ => .answered _ rfl⟩
  | rdWords => exact ⟨_, fun _ => rfl, fun _ => .answered _ rfl⟩
  | rdBytes => exact ⟨_, fun _ => rfl, fun _ => .answered _ rfl⟩
  | rdHex => exact ⟨_, fun _ => rfl, fun _ => .answered _ rfl⟩
  | rdText enc =>
    refine ⟨_, fun _ => rfl, fun m => ?_⟩
    obtain ⟨cs, -, h⟩ | ⟨k, -, h⟩ := viewText_cases (encodingMap enc) m
    · exact .answered _ h
    · exact .failed _ h
  | swapBytes => exact ⟨_, fun _ => rfl, fun _ => .stored _ rfl⟩
  | swapWords => exact ⟨_, fun _ => rfl, fun _ => .stored _ rfl⟩

/-- What a step can do: idle, reset, answer IllegalCommand, or execute the decoded command. -/
theorem step_cases (s : State) :
    (s.pending = [] ∧ step s = .next s) ∨
    (∃ c rest, s.pending = .reset c :: rest ∧ step s = .next (resetEvent { s with pending := rest })) ∨
    (∃ c rest e, s.pending = .command c :: rest ∧ decode c = .error e ∧
      step s = perform illegalCommand { s with pending := rest }) ∨
    (∃ c rest i, s.pending = .command c :: rest ∧ decode c = .ok i ∧ step s = exec i { s with pending := rest }) := by
  unfold step
  split
  · rename_i h; exact .inl ⟨h, rfl⟩
  · rename_i c rest h
    right; right
    unfold runCommand
    cases hd : decode c with
    | error e => exact .inl ⟨c, rest, e, h, hd, rfl⟩
    | ok i => exact .inr ⟨c, rest, i, h, hd, rfl⟩
  · rename_i c rest h; exact .inr (.inl ⟨c, rest, h, rfl⟩)

/-- A run takes a step and runs on from the state it gives. -/
theorem run_succ (n : Nat) (s t : State) (h : step s = .next t) :
    Host.Core.run Sys2Proof.core (n + 1) s = Host.Core.run Sys2Proof.core n t := by
  have h' : Sys2Proof.core.step s = .next t := h
  simp only [Host.Core.run, h']

/-- A view leaves the buffer it reads. -/
theorem view_keeps_buffer (i : Instr) (s : State) (hv : isView i = true) :
    ∃ r, exec i s = .next (s.complete { buf := s.buf, response := r }) := by
  cases i with
  | rdText enc =>
    obtain ⟨cs, -, h⟩ | ⟨k, -, h⟩ := viewText_cases (encodingMap enc) s.buf
    · exact ⟨_, congrArg (fun k => Host.Outcome.next (s.complete k)) h⟩
    · exact ⟨_, congrArg (fun k => Host.Outcome.next (s.complete k)) h⟩
  | rdU16 | rdI16 | rdU32 | rdI32 | rdU64 | rdI64 | rdF32 | rdF64 | rdWords | rdBytes | rdHex => exact ⟨_, rfl⟩
  | _ => cases hv

end Sys2Proof.Machine
end

