-- ==== Sys2Proof/Laws/PerInstr.lean ====
section
/-! SUPPORT. Per-instruction laws. EncodedLength: the words of a well-formed command are as many as its first two words ask for
(30_encoding.md R44). -/

namespace Sys2Proof.Laws.EncodedLength

/-- The length of the encoding is the one its header and count word give. -/
def Statement (i : Instr) : Prop :=
  i.wellFormed = true → (encode i).length = commandLength ((encode i).getD 0 0) ((encode i).getD 1 0)

/-- The length of a load's words. -/
theorem ofLoad (T : ScalarType) (n : Nat) (data : List Word) (hn : n ≤ 65535)
    (hd : data.length = n * T.operandWords) :
    (encodeLoad T n data).length
      = commandLength ((encodeLoad T n data).getD 0 0) ((encodeLoad T n data).getD 1 0) := by
  have hT : T.code < 16 := by cases T <;> decide
  have hl : loadType T.code = some T := by cases T <;> rfl
  have hm : n % 65536 = n := by omega
  simp [encodeLoad, commandLength, headerCls_headerWord, headerTyp_headerWord, hT, hl, hd, hm]
  omega

/-- The count of a well-formed integer load fits. -/
theorem ofInts (T : ScalarType) (vs : List Int) (hT : T.operandWords = 5) (h : intOperandsFit vs = true) :
    (encodeLoad T vs.length (vs.flatMap intElement)).length
      = commandLength ((encodeLoad T vs.length (vs.flatMap intElement)).getD 0 0)
        ((encodeLoad T vs.length (vs.flatMap intElement)).getD 1 0) := by
  simp only [intOperandsFit, Bool.and_eq_true, countFits, decide_eq_true_eq] at h
  exact ofLoad T _ _ h.1 (by rw [hT]; exact flatMap_length_const _ 5 intElement_length vs)

theorem ldU16 (vs : List Int) : Statement (.ldU16 vs) := fun h => ofInts .u16 vs rfl h
theorem ldI16 (vs : List Int) : Statement (.ldI16 vs) := fun h => ofInts .i16 vs rfl h
theorem ldU32 (vs : List Int) : Statement (.ldU32 vs) := fun h => ofInts .u32 vs rfl h
theorem ldI32 (vs : List Int) : Statement (.ldI32 vs) := fun h => ofInts .i32 vs rfl h
theorem ldU64 (vs : List Int) : Statement (.ldU64 vs) := fun h => ofInts .u64 vs rfl h
theorem ldI64 (vs : List Int) : Statement (.ldI64 vs) := fun h => ofInts .i64 vs rfl h

theorem ldF32 (vs : List (BitVec 32)) : Statement (.ldF32 vs) := fun h =>
  ofLoad .f32 _ _ (by simpa [Instr.wellFormed, countFits] using h) (flatMap_length_const _ 2 f32Element_length vs)

theorem ldF64 (vs : List (BitVec 64)) : Statement (.ldF64 vs) := fun h =>
  ofLoad .f64 _ _ (by simpa [Instr.wellFormed, countFits] using h) (flatMap_length_const _ 4 f64Element_length vs)

theorem ldWords (vs : List Word) : Statement (.ldWords vs) := fun h =>
  ofLoad .words _ _ (by simpa [Instr.wellFormed, countFits] using h) (by simp [ScalarType.operandWords])

theorem rdU16 : Statement .rdU16 := fun _ => by decide
theorem rdI16 : Statement .rdI16 := fun _ => by decide
theorem rdU32 : Statement .rdU32 := fun _ => by decide
theorem rdI32 : Statement .rdI32 := fun _ => by decide
theorem rdU64 : Statement .rdU64 := fun _ => by decide
theorem rdI64 : Statement .rdI64 := fun _ => by decide
theorem rdF32 : Statement .rdF32 := fun _ => by decide
theorem rdF64 : Statement .rdF64 := fun _ => by decide
theorem rdWords : Statement .rdWords := fun _ => by decide
theorem rdBytes : Statement .rdBytes := fun _ => by decide
theorem rdHex : Statement .rdHex := fun _ => by decide
theorem rdText (enc : TextEnc) : Statement (.rdText enc) := fun _ => by cases enc <;> decide
theorem swapBytes : Statement .swapBytes := fun _ => by decide
theorem swapWords : Statement .swapWords := fun _ => by decide

end Sys2Proof.Laws.EncodedLength
end

