-- ==== Sys2Proof/Laws/Response.lean ====
section
/-! SUPPORT. The words a byte sequence is sent as, and the lengths of texts. -/

namespace Sys2Proof.Machine

/-- A word is its two bytes, the first the more significant (20_memory.md R20). -/
theorem word_of_bytes (a b : Byte) : (a ++ b : BitVec 16) = BitVec.ofNat 16 (256 * a.toNat + b.toNat) := by
  apply BitVec.eq_of_toNat_eq
  have := a.isLt
  have hb := b.isLt
  rw [BitVec.toNat_append, ← Nat.shiftLeft_add_eq_or_of_lt hb, Nat.shiftLeft_eq, BitVec.toNat_ofNat]
  omega

theorem wordsOfBytes_length (bs : List Byte) : (wordsOfBytes bs).length = (bs.length + 1) / 2 := by
  induction bs using wordsOfBytes.induct with
  | case1 a b rest ih => simp [wordsOfBytes, ih]; omega
  | case2 a => simp [wordsOfBytes]
  | case3 => simp [wordsOfBytes]

/-- Word `k` holds bytes `2k` and `2k + 1`; a missing last byte counts as 0 (30_encoding.md R46). -/
theorem wordsOfBytes_getElem? (bs : List Byte) (k : Nat) (h : 2 * k < bs.length) :
    (wordsOfBytes bs)[k]? =
      some (BitVec.ofNat 16 (256 * (bs[2 * k]?.getD 0).toNat + (bs[2 * k + 1]?.getD 0).toNat)) := by
  induction bs using wordsOfBytes.induct generalizing k with
  | case1 a b rest ih =>
    cases k with
    | zero => simp [wordsOfBytes, word_of_bytes]
    | succ k =>
      simp only [wordsOfBytes, List.getElem?_cons_succ]
      rw [ih k (by simp at h; omega)]
      simp [Nat.mul_add]
  | case2 a =>
    have : k = 0 := by simp at h; omega
    subst this; simp only [wordsOfBytes, word_of_bytes]; rfl
  | case3 => simp at h

theorem wordsOfBytes_append (a b : List Byte) (h : a.length % 2 = 0) :
    wordsOfBytes (a ++ b) = wordsOfBytes a ++ wordsOfBytes b := by
  induction a using wordsOfBytes.induct with
  | case1 x y rest ih => simp only [List.cons_append, wordsOfBytes]; rw [ih (by simp at h; omega)]
  | case2 a => simp at h
  | case3 => rfl

/-- The words of a viewed chunk are the chunk's own bytes, whatever the type reads in them (30_encoding.md R46). -/
theorem scalarWords_of_chunk (T : ScalarType) (bs : List Byte) (h : bs.length = scalarWidth T) :
    scalarWords T (decScalar T (ube bs)) = wordsOfBytes bs := by
  unfold scalarWords
  have : (2 : Nat) ^ scalarBits T = 256 ^ scalarWidth T := by cases T <;> decide
  rw [encScalar_decScalar _ _ (by rw [this, ← h]; exact ube_lt bs), ← h, beBytes_ube]

/-- Where every byte has a code point, decoding gives them all, in order. -/
theorem decodeChars_valid (map : Byte → Option CodePoint) (i : Nat) (m : List Byte)
    (h : ∀ b ∈ m, (map b).isSome = true) : decodeChars map i m = .ok (m.map fun b => (map b).getD 0) := by
  induction m generalizing i with
  | nil => rfl
  | cons b m ih =>
    obtain ⟨c, hc⟩ := Option.isSome_iff_exists.mp (h b (by simp))
    simp only [decodeChars, hc, ih (i + 1) (fun b hb => h b (by simp [hb])), List.map_cons, Option.getD_some]

/-- Decoding stops at the first byte without a code point, with its offset. -/
theorem decodeChars_invalid (map : Byte → Option CodePoint) (i k : Nat) (m : List Byte) (b : Byte)
    (hb : m[k]? = some b) (hn : map b = none) (h : ∀ j c, j < k → m[j]? = some c → (map c).isSome = true) :
    decodeChars map i m = .error (i + k) := by
  induction m generalizing i k with
  | nil => simp at hb
  | cons x m ih =>
    cases k with
    | zero => simp at hb; subst hb; simp [decodeChars, hn]
    | succ k =>
      obtain ⟨c, hc⟩ := Option.isSome_iff_exists.mp (h 0 x (by omega) rfl)
      simp only [decodeChars, hc]
      rw [ih (i + 1) k (by simpa using hb) (fun j c hj hc => h (j + 1) c (by omega) (by simpa using hc))]
      simp only; congr 1; omega

/-- The strip takes the longest suffix of NULs and nothing else (42_raw_hex_text.md R104). -/
theorem stripNuls_spec (cs : List CodePoint) :
    (stripNuls cs).length ≤ cs.length ∧ (∀ k, k < (stripNuls cs).length → (stripNuls cs)[k]? = cs[k]?) ∧
    (∀ k, (stripNuls cs).length ≤ k → k < cs.length → cs[k]? = some 0) ∧ (stripNuls cs).getLast? ≠ some 0 := by
  induction cs using List.reverseRecOn with
  | nil => simp [stripNuls]
  | append_singleton cs c ih =>
    by_cases hc : c = 0
    · subst hc
      have : stripNuls (cs ++ [0]) = stripNuls cs := by simp [stripNuls]
      rw [this]
      obtain ⟨h1, h2, h3, h4⟩ := ih
      refine ⟨by simp; omega, ?_, ?_, h4⟩
      · intro k hk; rw [h2 k hk, List.getElem?_append_left (by omega)]
      · intro k hk hk2
        by_cases h : k < cs.length
        · rw [List.getElem?_append_left h]; exact h3 k hk h
        · have : k = cs.length := by simp at hk2; omega
          subst this; simp
    · have : stripNuls (cs ++ [c]) = cs ++ [c] := by simp [stripNuls, hc]
      rw [this]
      exact ⟨le_rfl, fun _ _ => rfl, fun k h1 h2 => by omega, by simpa using hc⟩

end Sys2Proof.Machine
end

