-- ==== Sys2Proof/Tests/Slice0.lean ====
section
/-! SUPPORT. Tests on fixed values and the witnesses of the statements' hypotheses. The expected values of the tests named after a
vector (T-..., S...) are those of 95_test_vectors.md; the others are worked by hand from the rule named. -/

namespace Sys2Proof.Tests

open Sys2Proof Sys2Proof.Machine Sys2Proof.Statements

/-- A block that holds `m`, with one command pending. -/
def given (m : Memory) (c : Transaction) : State := { buf := m, pending := [.command c], responses := [] }

/-- A block that holds `m`, with nothing pending. -/
def holding (m : Memory) : State := { buf := m, pending := [], responses := [] }

/-- What one step on a pending command leaves in the buffer and puts on the response port. -/
def wire (m : Memory) (c : Transaction) : Option (Memory × List Transaction) :=
  match step (given m c) with
  | .next t => some (t.buf, t.responses.map responseWords)
  | .fault _ => none
  | .refused _ => none

/-- The typed responses after one step on a pending command. -/
def typed (m : Memory) (c : Transaction) : Option (List Response) :=
  match step (given m c) with
  | .next t => some t.responses
  | .fault _ => none
  | .refused _ => none

/-- The state an outcome goes on in. -/
def nextState (o : Host.Outcome State Fault Refusal) : Option State :=
  match o with
  | .next t => some t
  | .fault _ => none
  | .refused _ => none

/-! ### Well-formedness: each check refuses an ill-formed term -/

theorem test_illformed_element_above : Instr.wellFormed (.ldU64 [2 ^ 79]) = false := by decide
theorem test_illformed_element_below : Instr.wellFormed (.ldI64 [0, -(2 ^ 79) - 1]) = false := by decide
theorem test_illformed_count_integers : Instr.wellFormed (.ldI16 (List.replicate 65536 0)) = false := by
  have h : ∀ n, 65535 < n → Instr.wellFormed (.ldI16 (List.replicate n 0)) = false := fun n hn => by
    simp [Instr.wellFormed, intOperandsFit, countFits, hn]
  exact h 65536 (by norm_num)
theorem test_illformed_count_floats : Instr.wellFormed (.ldF32 (List.replicate 65536 0)) = false := by
  have h : ∀ n, 65535 < n → Instr.wellFormed (.ldF32 (List.replicate n 0)) = false := fun n hn => by
    simp [Instr.wellFormed, countFits, hn]
  exact h 65536 (by norm_num)
theorem test_illformed_count_words : Instr.wellFormed (.ldWords (List.replicate 65536 0)) = false := by
  have h : ∀ n, 65535 < n → Instr.wellFormed (.ldWords (List.replicate n 0)) = false := fun n hn => by
    simp [Instr.wellFormed, countFits, hn]
  exact h 65536 (by norm_num)

/-! ### Decoding: a word of every row, written out from 30_encoding.md R36 to R41 -/

theorem test_decode_ldU16 :
    decode [0x1000, 0x0002, 0x0000, 0x0000, 0x0000, 0x0000, 0x0102, 0x0000, 0x0000, 0x0000, 0x0000, 0x0304]
      = .ok (.ldU16 [258, 772]) := by decide
theorem test_decode_ldI16 : decode [0x1100, 0x0001, 0xFFFF, 0xFFFF, 0xFFFF, 0xFFFF, 0xFFFE] = .ok (.ldI16 [-2]) := by decide
theorem test_decode_ldU32 : decode [0x1200, 0x0001, 0x0000, 0x0000, 0x0000, 0x0102, 0x0304] = .ok (.ldU32 [16909060]) := by
  decide
theorem test_decode_ldI32 : decode [0x1300, 0x0001, 0xFFFF, 0xFFFF, 0xFFFF, 0xFFFF, 0x0000] = .ok (.ldI32 [-65536]) := by
  decide
theorem test_decode_ldU64 :
    decode [0x1400, 0x0001, 0x0000, 0xFFFF, 0xFFFF, 0xFFFF, 0xFFFF] = .ok (.ldU64 [18446744073709551615]) := by decide
theorem test_decode_ldI64 :
    decode [0x1500, 0x0001, 0xFFFF, 0x8000, 0x0000, 0x0000, 0x0000] = .ok (.ldI64 [-9223372036854775808]) := by decide
theorem test_decode_ldF32 :
    decode [0x1600, 0x0002, 0xC020, 0x0000, 0x7FC0, 0x0001] = .ok (.ldF32 [0xC0200000#32, 0x7FC00001#32]) := by decide
theorem test_decode_ldF64 : decode [0x1700, 0x0001, 0x4009, 0x21F9, 0xF01B, 0x866E] = .ok (.ldF64 [0x400921F9F01B866E#64]) := by
  decide
theorem test_decode_ldWords : decode [0x1800, 0x0002, 0x0001, 0x0002] = .ok (.ldWords [0x0001, 0x0002]) := by decide
theorem test_decode_views :
    decode [0x2000] = .ok .rdU16 ∧ decode [0x2100] = .ok .rdI16 ∧ decode [0x2200] = .ok .rdU32 ∧ decode [0x2300] = .ok .rdI32 ∧
    decode [0x2400] = .ok .rdU64 ∧ decode [0x2500] = .ok .rdI64 ∧ decode [0x2600] = .ok .rdF32 ∧
    decode [0x2700] = .ok .rdF64 ∧ decode [0x2800] = .ok .rdWords := by decide
theorem test_decode_raw_hex_text :
    decode [0x2900] = .ok .rdBytes ∧ decode [0x2A00] = .ok .rdHex ∧ decode [0x2B00] = .ok (.rdText .latin1) ∧
    decode [0x2B01] = .ok (.rdText .ascii) := by decide
theorem test_decode_swaps : decode [0x3000] = .ok .swapBytes ∧ decode [0x3100] = .ok .swapWords := by decide

/-- T-IL1 to T-IL21: every row is answered `0005 0000` and leaves the buffer. -/
theorem test_illegal_commands :
    ∀ c ∈ ([[], [0x0000], [0xFFFF], [0x4000], [0x1900, 0x0000], [0x1B00, 0x0000], [0x2C00], [0x3200], [0x1001, 0x0000],
        [0x2001], [0x3001], [0x2B02], [0x2BFF], [0x2000, 0x0000], [0x3100, 0x0001], [0x1800], [0x1800, 0x0002, 0x0001],
        [0x1800, 0x0001, 0x0001, 0x0002], [0x1600, 0x0001, 0x3F80], [0x1000, 0x0001, 0x0001], [0x1000, 0x0081]] :
        List Transaction),
      wire [0xAA, 0xBB] c = some ([0xAA, 0xBB], [[0x0005, 0x0000]]) := by decide

/-- The opcode table numbers the first word in bits 15:0 and the count word in bits 31:16. -/
theorem test_table_word_of_every_format :
    decodeTableWord 16 0x1000 = some (.ldU16 []) ∧ decodeTableWord 32 0x00011600 = some (.ldF32 [0]) ∧
    decodeTableWord 16 0x2B01 = some (.rdText .ascii) ∧ decodeTableWord 16 0x3100 = some .swapWords ∧
    decodeTableWord 16 0x2C00 = none := by decide

/-- The word placed for the next step is the command that step runs. -/
theorem test_withFetchWord_is_what_step_runs :
    (nextState (step ((holding [1, 2]).withFetchWord 16 0x3000))).map (fun t => (t.buf, t.pending, t.responses))
      = some ([2, 1], [], [.ok (.stored 1)]) := by decide

/-! ### Loads -/

/-- T-LD3. -/
theorem test_ldU16_stores_big_endian :
    wire [] [0x1000, 0x0002, 0x0000, 0x0000, 0x0000, 0x0000, 0x0102, 0x0000, 0x0000, 0x0000, 0x0000, 0x0304]
      = some ([0x01, 0x02, 0x03, 0x04], [[0x0000, 0x0002]]) := by decide
/-- T-LD35. -/
theorem test_ldU16_reports_least_bad_index :
    wire [0xAA, 0xBB] [0x1000, 0x0003, 0x0000, 0x0000, 0x0000, 0x0000, 0x0000, 0x0000, 0x0000, 0x0000, 0x0001, 0x1170,
        0xFFFF, 0xFFFF, 0xFFFF, 0xFFFF, 0xFFFB]
      = some ([0xAA, 0xBB], [[0x0001, 0x0001]]) := by decide
/-- T-LD5. -/
theorem test_ldI16_stores_twos_complement :
    wire [] [0x1100, 0x0004, 0xFFFF, 0xFFFF, 0xFFFF, 0xFFFF, 0x8000, 0x0000, 0x0000, 0x0000, 0x0000, 0x7FFF,
        0xFFFF, 0xFFFF, 0xFFFF, 0xFFFF, 0xFFFF, 0x0000, 0x0000, 0x0000, 0x0000, 0x0000]
      = some ([0x80, 0x00, 0x7F, 0xFF, 0xFF, 0xFF, 0x00, 0x00], [[0x0000, 0x0004]]) := by decide
/-- T-LD34. -/
theorem test_ldI16_failure_writes_nothing :
    wire [0xAA, 0xBB] [0x1100, 0x0002, 0x0000, 0x0000, 0x0000, 0x0000, 0x0005, 0xFFFF, 0xFFFF, 0xFFFF, 0xFFFF, 0x7FFF]
      = some ([0xAA, 0xBB], [[0x0001, 0x0001]]) := by decide
/-- T-LD7. -/
theorem test_ldU32_bounds :
    wire [] [0x1200, 0x0002, 0x0000, 0x0000, 0x0000, 0xFFFF, 0xFFFF, 0x0000, 0x0000, 0x0000, 0x0000, 0x0000]
      = some ([0xFF, 0xFF, 0xFF, 0xFF, 0x00, 0x00, 0x00, 0x00], [[0x0000, 0x0004]]) := by decide
/-- T-LD36. -/
theorem test_ldU32_above_range :
    wire [0xAA, 0xBB] [0x1200, 0x0001, 0x0000, 0x0000, 0x0001, 0x0000, 0x0000] = some ([0xAA, 0xBB], [[0x0001, 0x0000]]) := by
  decide
/-- T-LD9. -/
theorem test_ldI32_bounds :
    wire [] [0x1300, 0x0002, 0xFFFF, 0xFFFF, 0xFFFF, 0x8000, 0x0000, 0x0000, 0x0000, 0x0000, 0x7FFF, 0xFFFF]
      = some ([0x80, 0x00, 0x00, 0x00, 0x7F, 0xFF, 0xFF, 0xFF], [[0x0000, 0x0004]]) := by decide
/-- T-LD38. -/
theorem test_ldI32_below_range :
    wire [0xAA, 0xBB] [0x1300, 0x0001, 0xFFFF, 0xFFFF, 0xFFFF, 0x7FFF, 0xFFFF] = some ([0xAA, 0xBB], [[0x0001, 0x0000]]) := by
  decide
/-- T-LD11: the greatest value is positive in 80 bits. -/
theorem test_ldU64_greatest :
    wire [] [0x1400, 0x0001, 0x0000, 0xFFFF, 0xFFFF, 0xFFFF, 0xFFFF]
      = some ([0xFF, 0xFF, 0xFF, 0xFF, 0xFF, 0xFF, 0xFF, 0xFF], [[0x0000, 0x0004]]) := by decide
/-- T-LD40: -1 is refused. -/
theorem test_ldU64_minus_one :
    wire [0xAA, 0xBB] [0x1400, 0x0001, 0xFFFF, 0xFFFF, 0xFFFF, 0xFFFF, 0xFFFF] = some ([0xAA, 0xBB], [[0x0001, 0x0000]]) := by
  decide
/-- T-LD12. -/
theorem test_ldI64_minus_two :
    wire [] [0x1500, 0x0001, 0xFFFF, 0xFFFF, 0xFFFF, 0xFFFF, 0xFFFE]
      = some ([0xFF, 0xFF, 0xFF, 0xFF, 0xFF, 0xFF, 0xFF, 0xFE], [[0x0000, 0x0004]]) := by decide
/-- T-LD42. -/
theorem test_ldI64_below_range :
    wire [0xAA, 0xBB] [0x1500, 0x0001, 0xFFFF, 0x7FFF, 0xFFFF, 0xFFFF, 0xFFFF] = some ([0xAA, 0xBB], [[0x0001, 0x0000]]) := by
  decide
/-- T-LD15. -/
theorem test_ldF32_keeps_patterns :
    wire [] [0x1600, 0x0002, 0xC020, 0x0000, 0x7FC0, 0x0001]
      = some ([0xC0, 0x20, 0x00, 0x00, 0x7F, 0xC0, 0x00, 0x01], [[0x0000, 0x0004]]) := by decide
/-- T-LD17. -/
theorem test_ldF64_keeps_patterns :
    wire [] [0x1700, 0x0001, 0x4009, 0x21F9, 0xF01B, 0x866E]
      = some ([0x40, 0x09, 0x21, 0xF9, 0xF0, 0x1B, 0x86, 0x6E], [[0x0000, 0x0004]]) := by decide
/-- T-LD18. -/
theorem test_ldWords_stores_words :
    wire [] [0x1800, 0x0002, 0x0001, 0x0002] = some ([0x00, 0x01, 0x00, 0x02], [[0x0000, 0x0002]]) := by decide
/-- T-LD19 from a non-empty buffer. -/
theorem test_ldWords_empty_empties : wire [0x01, 0x02] [0x1800, 0x0000] = some ([], [[0x0000, 0x0000]]) := by decide
/-- T-LD59, T-ER1: CapacityError goes before RangeError. -/
theorem test_capacity_before_range :
    (nextState (exec (.ldU16 (65536 :: List.replicate 128 0)) (holding [0xAA, 0xBB]))).map (fun t => (t.buf, t.responses))
      = some ([0xAA, 0xBB], [.error (.capacityError 129)]) := by
  simp [nextState, exec, execLdU16, perform, load, Config.thisHardware, Config.capBytes, scalarWidth, scalarBits, holding]
/-- T-ER2: IllegalCommand goes before RangeError. -/
theorem test_illegal_before_range :
    wire [0xAA, 0xBB] [0x1001, 0x0001, 0x0000, 0x0000, 0x0000, 0x0001, 0x0000] = some ([0xAA, 0xBB], [[0x0005, 0x0000]]) := by
  decide

/-! ### Views -/

/-- T-RD1. -/
theorem test_rdU16_unsigned :
    wire [0xFF, 0xFF, 0x80, 0x00] [0x2000] = some ([0xFF, 0xFF, 0x80, 0x00], [[0x0000, 0x0002, 0xFFFF, 0x8000]]) ∧
    typed [0xFF, 0xFF, 0x80, 0x00] [0x2000] = some [.ok (.scalars .u16 [65535, 32768])] := by decide
/-- S8: the view of three bytes has one element and is no error. -/
theorem test_rdU16_of_three_bytes : view .u16 [0x12, 0x34, 0x56] = [0x1234] := by decide
/-- T-RD2, T-RD23. -/
theorem test_rdI16_signed :
    typed [0xFF, 0xFF, 0x80, 0x00] [0x2100] = some [.ok (.scalars .i16 [-1, -32768])] ∧
    wire [0x80, 0x00, 0x7F, 0xFF, 0xFF, 0xFF, 0x00, 0x00] [0x2100]
      = some ([0x80, 0x00, 0x7F, 0xFF, 0xFF, 0xFF, 0x00, 0x00], [[0x0000, 0x0004, 0x8000, 0x7FFF, 0xFFFF, 0x0000]]) := by decide
/-- T-RD10: the remainder is dropped from the view and kept in the buffer. -/
theorem test_rdU32_drops_remainder :
    wire [1, 2, 3, 4, 5, 6] [0x2200] = some ([1, 2, 3, 4, 5, 6], [[0x0000, 0x0001, 0x0102, 0x0304]]) ∧
    typed [1, 2, 3, 4, 5, 6] [0x2200] = some [.ok (.scalars .u32 [16909060])] := by decide
/-- T-RD24. -/
theorem test_rdI32_bounds :
    wire [0x80, 0, 0, 0, 0x7F, 0xFF, 0xFF, 0xFF] [0x2300]
      = some ([0x80, 0, 0, 0, 0x7F, 0xFF, 0xFF, 0xFF], [[0x0000, 0x0002, 0x8000, 0x0000, 0x7FFF, 0xFFFF]]) ∧
    typed [0x80, 0, 0, 0, 0x7F, 0xFF, 0xFF, 0xFF] [0x2300] = some [.ok (.scalars .i32 [-2147483648, 2147483647])] := by decide
/-- T-RD8, T-RD11. -/
theorem test_rdU64 :
    typed [0xFF, 0xFF, 0xFF, 0xFF, 0xFF, 0xFF, 0xFF, 0xFE] [0x2400] = some [.ok (.scalars .u64 [18446744073709551614])] ∧
    wire [1, 2, 3, 4, 5, 6, 7, 8, 9, 10, 11, 12] [0x2400]
      = some ([1, 2, 3, 4, 5, 6, 7, 8, 9, 10, 11, 12], [[0x0000, 0x0001, 0x0102, 0x0304, 0x0506, 0x0708]]) := by decide
/-- T-RD7, T-RD13. -/
theorem test_rdI64 :
    typed [0xFF, 0xFF, 0xFF, 0xFF, 0xFF, 0xFF, 0xFF, 0xFE] [0x2500] = some [.ok (.scalars .i64 [-2])] ∧
    wire [1, 2, 3, 4] [0x2500] = some ([1, 2, 3, 4], [[0x0000, 0x0000]]) := by decide
/-- T-RD18, T-RD19: no canonicalization, no quieting. -/
theorem test_rdF32_returns_patterns :
    wire [0x7F, 0xC0, 0x00, 0x01, 0xFF, 0x80, 0x00, 0x00] [0x2600]
      = some ([0x7F, 0xC0, 0x00, 0x01, 0xFF, 0x80, 0x00, 0x00], [[0x0000, 0x0002, 0x7FC0, 0x0001, 0xFF80, 0x0000]]) ∧
    typed [0x7F, 0xA0, 0x00, 0x00] [0x2600] = some [.ok (.scalars .f32 [0x7FA00000])] := by decide
/-- T-RD14, T-RD21. -/
theorem test_rdF64_returns_patterns :
    wire [1, 2, 3, 4, 5, 6] [0x2700] = some ([1, 2, 3, 4, 5, 6], [[0x0000, 0x0000]]) ∧
    wire [0x3F, 0x80, 0, 0, 0, 0, 0, 0] [0x2700]
      = some ([0x3F, 0x80, 0, 0, 0, 0, 0, 0], [[0x0000, 0x0001, 0x3F80, 0x0000, 0x0000, 0x0000]]) := by decide
/-- T-RD22. -/
theorem test_rdWords :
    wire [0x00, 0x01, 0x00, 0x02] [0x2800] = some ([0x00, 0x01, 0x00, 0x02], [[0x0000, 0x0002, 0x0001, 0x0002]]) := by decide
/-- T-RH3: the count is in bytes. -/
theorem test_rdBytes :
    wire [1, 2, 3, 4, 5, 6] [0x2900] = some ([1, 2, 3, 4, 5, 6], [[0x0000, 0x0006, 0x0102, 0x0304, 0x0506]]) := by decide
/-- T-RH8. -/
theorem test_rdHex_uppercase :
    wire [0xAB, 0xCD, 0xEF, 0x09] [0x2A00]
      = some ([0xAB, 0xCD, 0xEF, 0x09],
          [[0x0000, 0x0009, 0x0041, 0x0042, 0x0043, 0x0044, 0x002D, 0x0045, 0x0046, 0x0030, 0x0039]]) := by decide
/-- T-RH4, T-RH5. -/
theorem test_rdHex_no_delimiter_at_the_ends :
    wire [] [0x2A00] = some ([], [[0x0000, 0x0000]]) ∧
    wire [0x00, 0xFF] [0x2A00] = some ([0x00, 0xFF], [[0x0000, 0x0004, 0x0030, 0x0030, 0x0046, 0x0046]]) := by decide
/-- T-RH12, T-RH18: an interior NUL stays; every byte is valid in ISO 8859-1. -/
theorem test_rdText_latin1 :
    wire [0x42, 0x41, 0x00, 0x43] [0x2B00]
      = some ([0x42, 0x41, 0x00, 0x43], [[0x0000, 0x0004, 0x0042, 0x0041, 0x0000, 0x0043]]) ∧
    wire [0x41, 0xE9, 0x00, 0x00] [0x2B00] = some ([0x41, 0xE9, 0x00, 0x00], [[0x0000, 0x0002, 0x0041, 0x00E9]]) := by decide
/-- T-RH21, T-RH22: decode first, strip after; 0x7F is the last valid byte. -/
theorem test_rdText_ascii :
    wire [0x41, 0x42, 0x00, 0x80] [0x2B01] = some ([0x41, 0x42, 0x00, 0x80], [[0x0002, 0x0003]]) ∧
    wire [0x41, 0x7F] [0x2B01] = some ([0x41, 0x7F], [[0x0000, 0x0002, 0x0041, 0x007F]]) := by decide

/-! ### Order transforms -/

/-- T-SW2. -/
theorem test_swapBytes_every_pair : wire [1, 2, 3, 4, 5, 6] [0x3000] = some ([2, 1, 4, 3, 6, 5], [[0x0000, 0x0003]]) := by decide
/-- T-SW5: pairs of words within each group, no reversal of the four words. -/
theorem test_swapWords_within_groups :
    wire [1, 2, 3, 4, 5, 6, 7, 8] [0x3100] = some ([3, 4, 1, 2, 7, 8, 5, 6], [[0x0000, 0x0004]]) := by decide
/-- T-SW6 (lenient), T-SW7 (strict). -/
theorem test_swapWords_remainder :
    wire [1, 2, 3, 4, 5, 6] [0x3100] = some ([3, 4, 1, 2, 5, 6], [[0x0000, 0x0003]]) ∧
    orderSwapWords { capWords := 128, swapWordsPolicy := .strict } [1, 2, 3, 4, 5, 6]
      = { buf := [1, 2, 3, 4, 5, 6], response := .error (.lengthError 3) } ∧
    responseWords (.error (.lengthError 3)) = [0x0003, 0x0003] := by decide

/-! ### Reset, assembler, float reading -/

/-- 70_reset_and_hazards.md R145: a reset empties the buffer, the interrupted command is neither run nor answered, the next
command runs. -/
theorem test_reset_event :
    (nextState (step { buf := [1, 2], pending := [.reset (some [0x3000]), .command [0x2900]], responses := [] })).map
      (fun t => (t.buf, t.pending, t.responses)) = some ([], [.command [0x2900]], []) := by decide

/-- T-LD22: the scalar form assembles to the words of the one-element sequence. -/
theorem test_assemble_scalar_form :
    assemble ["LD.U16 7 ; one register".toList] = assemble ["LD.U16 [7]".toList] ∧
    assemble ["LD.U16 7".toList] = .ok [[0x1000, 0x0001, 0x0000, 0x0000, 0x0000, 0x0000, 0x0007]] := by decide
/-- T-LD5, T-LD15, T-RH11 and an unknown mnemonic. -/
theorem test_assemble_lines :
    assemble ["LD.I16 [-32768, -1]".toList, "".toList, "LD.F32 [0x3F800000]".toList, "RD.TEXT ASCII".toList, "SWAP.WORDS".toList]
      = .ok [[0x1100, 0x0002, 0xFFFF, 0xFFFF, 0xFFFF, 0xFFFF, 0x8000, 0xFFFF, 0xFFFF, 0xFFFF, 0xFFFF, 0xFFFF],
          [0x1600, 0x0001, 0x3F80, 0x0000], [0x2B01], [0x3100]] ∧
    assemble ["LD.TEXT 0".toList] = .error .unknownMnemonic := by decide

/-- 2.5 is 5 * 2^-1: 0xC0200000 is -2.5 (T-LD15), 0x7FC00001 a quiet NaN with payload 1, 0x7FA00000 a signalling NaN (T-RD19). -/
theorem test_float_readings :
    readFloat binary32 0xC0200000 = .normal true (5 * 2 ^ 21) (-22) ∧
    readFloat binary32 0x7FC00001 = .nan false true 1 ∧
    readFloat binary32 0x7FA00000 = .nan false false 0x200000 ∧
    readFloat binary64 0xFFF0000000000000 = .infinity true ∧
    readFloat binary64 1 = .subnormal false 1 (-1074) := by decide

/-! ### Witnesses: for every statement with hypotheses, concrete values that meet them, clause by clause and at the boundaries -/

/-- A buffer at the capacity. -/
def full : Memory := List.replicate 256 0xFF

theorem full_length : full.length = 256 := List.length_replicate

theorem full_inv : full.length % 2 = 0 ∧ full.length ≤ 256 := by rw [full_length]; decide

theorem witness_ResetEmptiesBufferWithoutResponse :
    ({ buf := full, pending := [.reset (some [0x3000]), .command [0x2900]], responses := [] } : State).pending
      = .reset (some [0x3000]) :: [.command [0x2900]] ∧
    ({ buf := full, pending := [.reset none], responses := [] } : State).pending = .reset none :: [] := ⟨rfl, rfl⟩

/-- At the capacity, on a transform; and on the empty buffer, on an illegal command. -/
theorem witness_StepKeepsBufferInvariant :
    ((given full [0x3000]).buf.length % 2 = 0 ∧ (given full [0x3000]).buf.length ≤ 256 ∧
      ∃ t, step (given full [0x3000]) = .next t) ∧
    ((given [] [0x2C00]).buf.length % 2 = 0 ∧ (given [] [0x2C00]).buf.length ≤ 256 ∧
      ∃ t, step (given [] [0x2C00]) = .next t) :=
  have h : ∀ m : Memory, m.length % 2 = 0 ∧ m.length ≤ 256 → (given m [0x3000]).buf.length % 2 = 0 ∧
      (given m [0x3000]).buf.length ≤ 256 ∧ ∃ t, step (given m [0x3000]) = .next t := fun _ hm => ⟨hm.1, hm.2, _, rfl⟩
  ⟨h full full_inv, by decide, by decide, _, rfl⟩

theorem witness_StepRunsDecodedCommand :
    (given [1, 2] [0x3000]).pending = .command [0x3000] :: [] ∧ decode [0x3000] = .ok .swapBytes := by decide

theorem witness_IllegalWordsAreAnsweredAndWriteNothing :
    (given [1, 2] [0x2C00]).pending = .command [0x2C00] :: [] ∧ decode [0x2C00] = .error .reservedType := by decide

theorem witness_IdleStepChangesNothing : (holding [1, 2]).pending = [] ∧ State.reset.pending = [] := by decide

theorem witness_RunAnswersEveryCommand : StateInv State.reset ∧ StateInv (given full [0x3100]) :=
  have h : ∀ m : Memory, m.length % 2 = 0 ∧ m.length ≤ 256 → StateInv (given m [0x3100]) := fun _ hm => hm
  ⟨by decide, h full full_inv⟩

theorem witness_EveryCommandCompletesWithItsFrame : isView .rdU16 = true ∧ isView (.rdText .ascii) = true := by decide

theorem witness_ViewsReadTheBufferAlone : isView .rdF64 = true ∧ isView (.rdText .latin1) = true := by decide

/-- Both ends of the 80-bit element, no element, and the greatest count. -/
theorem witness_DecodeOfEncodeIsTheCommand :
    Instr.wellFormed (.ldI64 [2 ^ 79 - 1, -(2 ^ 79), 0]) = true ∧ Instr.wellFormed (.ldF64 []) = true ∧
    Instr.wellFormed (.ldWords (List.replicate 65535 0)) = true ∧ Instr.wellFormed .swapWords = true := by
  have h : ∀ n, n ≤ 65535 → Instr.wellFormed (.ldWords (List.replicate n 0)) = true := fun n hn => by
    simp [Instr.wellFormed, countFits, hn]
  exact ⟨by decide, by decide, h 65535 (by norm_num), by decide⟩

theorem witness_EncodeOfDecodeIsTheWords :
    decode [0x1100, 0x0001, 0x7FFF, 0xFFFF, 0xFFFF, 0xFFFF, 0xFFFF] = .ok (.ldI16 [2 ^ 79 - 1]) ∧
    decode [0x1100, 0x0001, 0x8000, 0x0000, 0x0000, 0x0000, 0x0000] = .ok (.ldI16 [-(2 ^ 79)]) ∧
    decode [0x1700, 0x0000] = .ok (.ldF64 []) ∧ decode [0x2B01] = .ok (.rdText .ascii) := by decide

/-- One header for each alternative of the hypothesis, in its order, at the end of its range that a legal command touches. -/
theorem witness_ReservedEncodingsAreIllegal :
    ((0x0FFF#16).toNat = 4096 * 0 + 256 * 15 + 255 ∧ (0x4000#16).toNat = 4096 * 4 + 256 * 0 + 0) ∧
    (0x1900#16).toNat = 4096 * 1 + 256 * 9 + 0 ∧ (0x2C00#16).toNat = 4096 * 2 + 256 * 12 + 0 ∧
    (0x3200#16).toNat = 4096 * 3 + 256 * 2 + 0 ∧ (0x2A01#16).toNat = 4096 * 2 + 256 * 10 + 1 ∧
    (0x2B02#16).toNat = 4096 * 2 + 256 * 11 + 2 ∧
    ((0x3100#16).toNat = 4096 * 3 + 256 * 1 + 0 ∧ ([0x0000] : List Word) ≠ []) ∧
    (0x1800#16).toNat = 4096 * 1 + 256 * 8 + 0 ∧
    ((0x1500#16).toNat = 4096 * 1 + 256 * 5 + 0 ∧ ([0, 0, 0, 0] : List Word).length ≠ (0x0001#16).toNat * 5) ∧
    ((0x1600#16).toNat = 4096 * 1 + 256 * 6 + 0 ∧ ([0] : List Word).length ≠ (0x0001#16).toNat * 2) ∧
    ((0x1700#16).toNat = 4096 * 1 + 256 * 7 + 0 ∧ ([0, 0, 0, 0, 0] : List Word).length ≠ (0x0001#16).toNat * 4) ∧
    ([0] : List Word).length ≠ (0x0000#16).toNat := by decide

/-- No element, and two that differ: the least and the greatest operand value. -/
theorem witness_IntegerElementIsSignExtendedEightyBits :
    ([] : List (Word × Word × Word × Word × Word)).length ≤ 65535 ∧
    ([(0x8000, 0, 0, 0, 0), (0x7FFF, 0xFFFF, 0xFFFF, 0xFFFF, 0xFFFF)] : List (Word × Word × Word × Word × Word)).length ≤ 65535 ∧
    fiveWordValue (0x8000, 0, 0, 0, 0) = -(2 ^ 79) ∧
    fiveWordValue (0x7FFF, 0xFFFF, 0xFFFF, 0xFFFF, 0xFFFF) = 2 ^ 79 - 1 := by decide

/-- No element, and more than one; the greatest count. -/
theorem witness_PatternElementsAreMostSignificantWordFirst :
    ([] : List (Word × Word)).length ≤ 65535 ∧ ([(0x3F80, 0), (0x7FC0, 1)] : List (Word × Word)).length ≤ 65535 ∧
    ([(0x4009, 0x21F9, 0xF01B, 0x866E), (0, 0, 0, 1)] : List (Word × Word × Word × Word)).length ≤ 65535 ∧
    (List.replicate 65535 (0 : Word)).length ≤ 65535 ∧ ∃ vs, (.ldF64 [1] : Instr) = .ldF64 vs := by
  rw [List.length_replicate]
  exact ⟨by decide, by decide, by decide, by decide, _, rfl⟩

/-- Success of the integer loads: both ends of each range, and an element of the packed form. -/
theorem witness_IntegerLoadsPackOrRefuse_success :
    (∀ v ∈ ([0, 65535] : List Int), 0 ≤ v ∧ v ≤ 65535) ∧ (∀ v ∈ ([-32768, 32767] : List Int), -32768 ≤ v ∧ v ≤ 32767) ∧
    (∀ v ∈ ([0, 4294967295] : List Int), 0 ≤ v ∧ v ≤ 4294967295) ∧
    (∀ v ∈ ([-2147483648, 2147483647] : List Int), -2147483648 ≤ v ∧ v ≤ 2147483647) ∧
    (∀ v ∈ ([0, 18446744073709551615] : List Int), 0 ≤ v ∧ v ≤ 18446744073709551615) ∧
    (∀ v ∈ ([-9223372036854775808, 9223372036854775807] : List Int),
      -9223372036854775808 ≤ v ∧ v ≤ 9223372036854775807) ∧
    ([0, 0] : List Int).length * 8 ≤ 256 ∧ ([0, 65535] : List Int)[1]? = some 65535 := by decide

/-- The packed size at the capacity and one element above it, in the three widths. -/
theorem witness_IntegerLoadsPackOrRefuse_capacity :
    ((List.replicate 128 (0 : Int)).length * 2 ≤ 256 ∧ ∀ v ∈ List.replicate 128 (0 : Int), 0 ≤ v ∧ v ≤ 65535) ∧
    (List.replicate 64 (0 : Int)).length * 4 ≤ 256 ∧ (List.replicate 32 (0 : Int)).length * 8 ≤ 256 ∧
    256 < (List.replicate 129 (0 : Int)).length * 2 ∧ 256 < (List.replicate 65 (0 : Int)).length * 4 ∧
    256 < (List.replicate 33 (0 : Int)).length * 8 := by
  simp only [List.length_replicate, List.mem_replicate]
  exact ⟨⟨by decide, fun v hv => by omega⟩, by decide, by decide, by decide, by decide, by decide⟩

/-- The first value out of range, just above and just below each range, after a value in range or first. -/
theorem witness_IntegerLoadsPackOrRefuse_range :
    (([0, 65536] : List Int)[1]? = some 65536 ∧ ¬ ((0 : Int) ≤ 65536 ∧ (65536 : Int) ≤ 65535) ∧
      ∀ j u, j < 1 → ([0, 65536] : List Int)[j]? = some u → 0 ≤ u ∧ u ≤ 65535) ∧
    (([-32769] : List Int)[0]? = some (-32769) ∧ ¬ ((-32768 : Int) ≤ -32769 ∧ (-32769 : Int) ≤ 32767)) ∧
    ¬ ((0 : Int) ≤ -1 ∧ (-1 : Int) ≤ 4294967295) ∧ ¬ ((-2147483648 : Int) ≤ 2147483648 ∧ (2147483648 : Int) ≤ 2147483647) ∧
    ¬ ((0 : Int) ≤ 18446744073709551616 ∧ (18446744073709551616 : Int) ≤ 18446744073709551615) ∧
    ¬ ((-9223372036854775808 : Int) ≤ -9223372036854775809 ∧ (-9223372036854775809 : Int) ≤ 9223372036854775807) := by
  refine ⟨⟨rfl, by decide, ?_⟩, by decide⟩
  intro j u hj hu
  obtain rfl : j = 0 := by omega
  cases hu
  decide

/-- At the capacity and one pattern above it. -/
theorem witness_FloatLoadsStorePatternsUnchanged :
    (List.replicate 64 0x7FC00001#32).length * 4 ≤ 256 ∧ 256 < (List.replicate 65 0x7FC00001#32).length * 4 ∧
    (List.replicate 32 0x8000000000000000#64).length * 8 ≤ 256 ∧
    256 < (List.replicate 33 0x8000000000000000#64).length * 8 ∧
    ([0x3F800000#32] : List (BitVec 32))[0]? = some 0x3F800000#32 := by
  simp only [List.length_replicate]; decide

theorem witness_LoadWordsIsLoadU16OnWords :
    (List.replicate 128 0xFFFF#16).length * 2 ≤ 256 ∧ 256 < (List.replicate 129 0xFFFF#16).length * 2 ∧
    ([0x0001, 0x0002] : List Word)[1]? = some 0x0002 := by
  simp only [List.length_replicate]; decide

theorem witness_EmptyLoadsEmptyTheBuffer :
    (.ldF64 [] : Instr) ∈ ([.ldU16 [], .ldI16 [], .ldU32 [], .ldI32 [], .ldU64 [], .ldI64 [], .ldF32 [], .ldF64 [],
      .ldWords []] : List Instr) := by decide

theorem witness_CapacityErrorExactlyAboveTheCount :
    128 < (List.replicate 129 (70000 : Int)).length ∧ (List.replicate 128 (70000 : Int)).length ≤ 128 ∧
    64 < (List.replicate 65 0#32).length ∧ (List.replicate 64 0#32).length ≤ 64 ∧
    32 < (List.replicate 33 0#64).length ∧ (List.replicate 32 0#64).length ≤ 32 := by
  simp only [List.length_replicate]; decide

theorem witness_LoadResultIgnoresOldBuffer :
    isView (.ldU16 [7]) = false ∧ (.ldU16 [7] : Instr) ≠ .swapBytes ∧ (.ldU16 [7] : Instr) ≠ .swapWords ∧
    exec (.ldU16 [7]) (holding [1, 2, 3, 4]) = .next { buf := [0, 7], pending := [], responses := [.ok (.stored 1)] } :=
  ⟨rfl, by decide, by decide, rfl⟩

/-- For IntegerViewsUnpackChunks, FloatViewsReturnPatterns and ViewWordsReadsWords: the first and the last chunk, in each width. -/
theorem witness_ScalarViews :
    (0 < (holding [1, 2, 3, 4, 5, 6]).buf.length / 2 ∧ 2 < (holding [1, 2, 3, 4, 5, 6]).buf.length / 2) ∧
    (0 < (holding [1, 2, 3, 4, 5, 6]).buf.length / 4 ∧ 1 < (holding [1, 2, 3, 4, 5, 6, 7, 8]).buf.length / 4) ∧
    1 < (holding [1, 2, 3, 4, 5, 6, 7, 8, 9, 10, 11, 12, 13, 14, 15, 16]).buf.length / 8 ∧
    1 < (holding [1, 2, 3, 4, 5, 6]).buf.length / 4 * 4 / 2 := by decide

/-- Both ends of each range, within the capacity. -/
theorem witness_LoadThenViewRoundTrips :
    ([0, 65535] : List Int).length * 2 ≤ 256 ∧
    (∀ v ∈ ([-32768, 32767, -1] : List Int), -32768 ≤ id v ∧ id v ≤ 32767) ∧
    (∀ v ∈ ([0, 18446744073709551615] : List Int), 0 ≤ id v ∧ id v ≤ 18446744073709551615) ∧
    (∀ v ∈ ([0x7FC00001#32, 0x80000000#32] : List (BitVec 32)), (0 : Int) ≤ v.toNat ∧ (v.toNat : Int) ≤ 4294967295) ∧
    (∀ v ∈ ([0xFFFFFFFFFFFFFFFF#64] : List (BitVec 64)), (0 : Int) ≤ v.toNat ∧ (v.toNat : Int) ≤ 18446744073709551615) ∧
    (∀ v ∈ ([0xFFFF#16] : List Word), (0 : Int) ≤ v.toNat ∧ (v.toNat : Int) ≤ 65535) :=
  ⟨by decide, by decide, by decide, by simp, by simp, by simp⟩

/-- The check of 95_test_vectors.md on the lens identities. -/
theorem witness_LensLawsOverOneBuffer :
    (0 < (view .u32 [1, 2, 3, 4, 5, 6, 7, 8]).length ∧ (view .u16 [1, 2, 3, 4, 5, 6, 7, 8])[0]? = some 258 ∧
      (view .u16 [1, 2, 3, 4, 5, 6, 7, 8])[1]? = some 772) ∧
    (0 < (view .u64 [1, 2, 3, 4, 5, 6, 7, 8]).length ∧ (view .u32 [1, 2, 3, 4, 5, 6, 7, 8])[0]? = some 16909060 ∧
      (view .u32 [1, 2, 3, 4, 5, 6, 7, 8])[1]? = some 84281096) := by decide

theorem witness_BytesViewReturnsTheBuffer :
    (resultPayload (.bytes [1, 2, 3])).length = 2 ∧ 1 < (resultPayload (.bytes [1, 2, 3])).length := by decide

/-- One group (no delimiter) and the last delimiter of three groups. -/
theorem witness_HexViewGroupsUppercaseDigits :
    0 < (holding [0x00, 0xFF]).buf.length / 2 ∧ ¬ (0 + 1 < (holding [0x00, 0xFF]).buf.length / 2) ∧
    1 + 1 < (holding [4, 3, 2, 1, 6, 5]).buf.length / 2 := by decide

/-- The valid bytes up to the bound, a stripped and an interior NUL, and the first invalid byte just above the bound. -/
theorem witness_TextViewDecodesThenStrips :
    (∀ b ∈ (holding [0xFF, 0x00, 0x41, 0x00]).buf, b.toNat < 256) ∧ (∀ b ∈ (holding [0x41, 0x7F]).buf, b.toNat < 128) ∧
    ((holding [0x7F, 0x80, 0xFF]).buf[1]? = some 0x80#8 ∧ 128 ≤ (0x80#8).toNat ∧
      ∀ j c, j < 1 → (holding [0x7F, 0x80, 0xFF]).buf[j]? = some c → c.toNat < 128) := by
  refine ⟨by decide, by decide, rfl, by decide, ?_⟩
  intro j c hj hc
  obtain rfl : j = 0 := by omega
  cases hc
  decide

theorem witness_AnyEncodingMapStripsAlike :
    (∀ b, encodingMap .latin1 b = some 0 ↔ b = 0) ∧
    (∀ b ∈ (holding [0x41, 0x00, 0xE9, 0x00]).buf, (encodingMap .latin1 b).isSome = true) :=
  ⟨fun b => by simp [encodingMap, ← BitVec.toNat_inj], by decide⟩

/-- The last pair, and an odd length. -/
theorem witness_SwapBytesExchangesEveryPair :
    2 * 2 + 1 < (holding [1, 2, 3, 4, 5, 6]).buf.length ∧ (holding [1, 2, 3]).buf.length % 2 = 1 := by decide

/-- The last group, and the first offset of a remainder. -/
theorem witness_SwapWordsExchangesWordsOfGroups :
    4 * 1 + 3 < (holding [1, 2, 3, 4, 5, 6, 7, 8]).buf.length ∧ (holding [1, 2, 3, 4, 5, 6]).buf.length / 4 * 4 ≤ 4 := by
  decide

theorem witness_StrictSwapWordsRejectsOddWordCount :
    (holding [1, 2]).buf.length % 4 ≠ 0 ∧ (holding []).buf.length % 4 = 0 ∧ (holding [1, 2, 3, 4]).buf.length % 4 = 0 := by
  decide

/-- For SwapsPermuteTheBytes and SwapsAreInvolutions. -/
theorem witness_Swaps :
    ((.swapBytes : Instr) = .swapBytes ∨ (.swapBytes : Instr) = .swapWords) ∧
    ((.swapWords : Instr) = .swapBytes ∨ (.swapWords : Instr) = .swapWords) := by decide

theorem witness_SwapsCommuteAndReverseGroups : 4 * 1 + 3 < (holding [1, 2, 3, 4, 5, 6, 7, 8]).buf.length := by decide

theorem witness_FailedCommandsLeaveTheBuffer :
    step (given [0x41, 0xE9] [0x2B01])
      = .next { buf := [0x41, 0xE9], pending := [], responses := [] ++ [.error (.decodeError 1)] } := rfl

/-- The longest response of a full buffer: 639 characters. -/
theorem witness_CountsAndInfosFitOneWord :
    (given full [0x2A00]).buf.length % 2 = 0 ∧ (given full [0x2A00]).buf.length ≤ 256 ∧
    step (given full [0x2A00])
      = .next { buf := full, pending := [], responses := [] ++ [.ok (.chars (hexText full))] } :=
  have h : ∀ m : Memory, m.length % 2 = 0 ∧ m.length ≤ 256 → (given m [0x2A00]).buf.length % 2 = 0 ∧
      (given m [0x2A00]).buf.length ≤ 256 ∧ step (given m [0x2A00])
        = .next { buf := m, pending := [], responses := [] ++ [.ok (.chars (hexText m))] } := fun _ hm => ⟨hm.1, hm.2, rfl⟩
  h full full_inv

/-- The least and the greatest legal capacity. -/
theorem witness_EveryLegalConfigurationKeepsItsBounds :
    (({ capWords := 1, swapWordsPolicy := .strict } : Config).legal = true ∧
      BufferInv { capWords := 1, swapWordsPolicy := .strict } [1, 2]) ∧
    (({ capWords := 13107, swapWordsPolicy := .lenient } : Config).legal = true ∧
      BufferInv { capWords := 13107, swapWordsPolicy := .lenient } [1, 2]) := by decide

/-- The greatest field values of both precisions. -/
theorem witness_FloatPatternReadingByFields :
    255 < 256 ∧ 8388607 < 8388608 ∧ 2047 < 2048 ∧ 4503599627370495 < 4503599627370496 := by decide

theorem witness_AssembledLinesAreCarriedCommands :
    assembleLine "LD.I64 [-1, 0x10]".toList = .ok (some (.ldI64 [-1, 16])) ∧
    assembleLine "RD.TEXT LATIN1".toList = .ok (some (.rdText .latin1)) := by decide

/-- Operands at both ends of the element, decimal and hexadecimal, of a pattern and of a word; the empty sequence; and a program. -/
theorem witness_AssemblerLinesStandForTheirCommands :
    (∀ o ∈ [WrittenOperand.decimal true [6, 0, 4, 4, 6, 2, 9, 0, 9, 8, 0, 7, 3, 1, 4, 5, 8, 7, 3, 5, 3, 0, 8, 8],
        .hex (7 :: List.replicate 19 15)], o.valid = true ∧ true = true ∧ -(2 ^ 79) ≤ o.number ∧ o.number ≤ 2 ^ 79 - 1) ∧
    (∀ o ∈ [WrittenOperand.hex [3, 15, 8, 0, 0, 0, 0, 0], .hex (List.replicate 8 15)],
      o.valid = true ∧ o.isHex = true ∧ 0 ≤ o.number ∧ o.number ≤ 2 ^ 32 - 1) ∧
    (∀ o ∈ [WrittenOperand.hex (List.replicate 16 15)], o.valid = true ∧ o.isHex = true ∧ 0 ≤ o.number ∧ o.number ≤ 2 ^ 64 - 1) ∧
    (∀ o ∈ [WrittenOperand.decimal false [0], .decimal false [6, 5, 5, 3, 5]],
      o.valid = true ∧ true = true ∧ 0 ≤ o.number ∧ o.number ≤ 65535) ∧
    ([] : List WrittenOperand).length ≤ 65535 ∧
    (∀ p ∈ ([("SWAP.BYTES".toList, .swapBytes), ("RD.TEXT 1".toList, .rdText .ascii)] : List (List Char × Instr)),
      assembleLine p.1 = .ok (some p.2)) := by
  decide

/-- An operand the line takes and one it refuses. -/
theorem witness_ScalarFormIsTheOneElementSequence :
    (WrittenOperand.decimal false [7]).valid = true ∧ (WrittenOperand.decimal true [1]).valid = true ∧
    "LD.F32" ∈ ["LD.U16", "LD.I16", "LD.U32", "LD.I32", "LD.U64", "LD.I64", "LD.F32", "LD.F64", "LD.WORDS"] := by
  decide

end Sys2Proof.Tests
end

section
/-! PROOFS. What the shared operations leave in the buffer and answer, in length: every legal capacity keeps the invariant of
10_state.md R11, and every count and `info` fits one word (00_scope.md R5). -/

namespace Sys2Proof.Machine

/-! ### The capacity -/

/-- The greatest capacity, 13107 words, is 26214 bytes (00_scope.md R5). -/
theorem capBytes_le_of_legal {c : Config} (h : c.legal = true) : c.capBytes ≤ 26214 := by
  simp only [Config.legal, decide_eq_true_eq] at h
  simp only [Config.capBytes]
  omega

theorem legal_thisHardware : Config.thisHardware.legal = true := by decide

/-! ### The invariant under the writes -/

/-- Whole elements have an even number of bytes. -/
theorem length_pack_even (T : ScalarType) (vs : List Int) : (pack T vs).length % 2 = 0 := by
  rw [pack_length, Nat.mul_mod, scalarWidth_even, Nat.mul_zero, Nat.zero_mod]

theorem bufferInv_load (c : Config) (T : ScalarType) (vs : List Int) (m : Memory) (h : BufferInv c m) :
    BufferInv c (load c T vs m).buf := by
  obtain ⟨-, hl⟩ | ⟨-, k, v, -, -, -, hl⟩ | ⟨hcap, -, hl⟩ := load_cases c T vs m
  · rwa [hl]
  · rwa [hl]
  · rw [hl, storeAndAnswer_buf]
    exact ⟨length_pack_even T vs, by rwa [pack_length]⟩

theorem bufferInv_orderSwapBytes (c : Config) (m : Memory) (h : BufferInv c m) : BufferInv c (orderSwapBytes m).buf := by
  simpa [orderSwapBytes, BufferInv] using h

theorem bufferInv_orderSwapWords (c : Config) (m : Memory) (h : BufferInv c m) :
    BufferInv c (orderSwapWords c m).buf := by
  obtain hs | ⟨-, -, hs⟩ := orderSwapWords_cases c m
  · simpa [hs, BufferInv] using h
  · rwa [hs]

/-! ### The length of the texts -/

/-- Groups of `w` elements with one separator between them: `w + 1` for each group, less the separator the last does not have. -/
theorem length_intercalate_of_length_eq {α : Type} (sep : α) (w : Nat) (gs : List (List α)) (h : ∀ g ∈ gs, g.length = w) :
    ([sep].intercalate gs).length = (w + 1) * gs.length - 1 := by
  induction gs with
  | nil => rfl
  | cons g gs ih =>
    cases gs with
    | nil => simp [h g]
    | cons g' gs =>
      have hg : g.length = w := h g (by simp)
      have ih := ih fun x hx => h x (by simp [hx])
      rw [List.intercalate_cons_cons, List.length_append, List.length_append, ih, hg]
      simp only [List.length_cons, List.length_nil, Nat.mul_add, Nat.mul_one]
      omega

/-- Every chunk has the width it was cut to. -/
theorem length_of_mem_chunks {w : Nat} {m : Memory} {ch : List Byte} (h : ch ∈ chunks w m) : ch.length = w := by
  obtain ⟨k, hk, rfl⟩ := List.mem_map.mp h
  have hk : k < m.length / w := List.mem_range.mp hk
  refine memRead_length _ _ _ ?_
  calc k * w + w = (k + 1) * w := (Nat.succ_mul k w).symm
    _ ≤ m.length / w * w := Nat.mul_le_mul_right w hk
    _ ≤ m.length := Nat.div_mul_le_self _ _

/-- Four digits for every complete pair and a delimiter between the groups (42_raw_hex_text.md R101). -/
@[simp] theorem hexText_length (m : Memory) : (hexText m).length = 5 * (m.length / 2) - 1 := by
  have hgroup : ∀ g ∈ (chunks 2 m).map (fun ch => ch.flatMap hex2), g.length = 4 := by
    intro g hg
    obtain ⟨ch, hch, rfl⟩ := List.mem_map.mp hg
    rw [flatMap_length_const hex2 2 (fun _ => rfl), length_of_mem_chunks hch]
  rw [hexText, length_intercalate_of_length_eq _ 4 _ hgroup, List.length_map, chunks_length]

/-- Decoding gives one character per byte, or names the offset of one of the bytes. -/
theorem decodeChars_bounds (map : Byte → Option CodePoint) (i : Nat) (m : List Byte) :
    (∀ cs, decodeChars map i m = .ok cs → cs.length = m.length) ∧
    (∀ k, decodeChars map i m = .error k → k < i + m.length) := by
  induction m generalizing i with
  | nil => simp [decodeChars]
  | cons b m ih =>
    obtain ⟨ihok, iherr⟩ := ih (i + 1)
    cases hb : map b with
    | none => simp [decodeChars, hb]
    | some c =>
      cases hm : decodeChars map (i + 1) m with
      | error k =>
        have := iherr k hm
        simp [decodeChars, hb, hm]
        omega
      | ok cs => simp [decodeChars, hb, hm, ihok cs hm]

/-- A text is at most as long as the buffer, and an invalid byte is one of the buffer's. -/
theorem textOf_bounds (map : Byte → Option CodePoint) (m : Memory) :
    (∀ cs, textOf map m = .ok cs → cs.length ≤ m.length) ∧ (∀ k, textOf map m = .error k → k < m.length) := by
  obtain ⟨hok, herr⟩ := decodeChars_bounds map 0 m
  cases hd : decodeChars map 0 m with
  | error k => simpa [textOf, hd] using herr k hd
  | ok cs =>
    have hstrip : (stripNuls cs).length ≤ cs.length := (stripNuls_spec cs).1
    have hlen := hok cs hd
    simp only [textOf, hd]
    refine ⟨?_, by simp⟩
    rintro _ ⟨⟩
    omega

/-! ### The counts and infos of the shared operations -/

/-- The status codes are those of 60_exceptions.md R120. -/
theorem statusCode_le_five (r : Response) : statusCode r ≤ 5 := by
  cases r with
  | ok r => simp [statusCode]
  | error e => cases e <;> simp [statusCode, errorCode]

/-- Storing answers half the new length. -/
theorem secondField_storeAndAnswer (m : Memory) : secondField (storeAndAnswer m).response = m.length / 2 := rfl

/-- A load answers its own element count, an index below it, or the words it stored. -/
theorem secondField_load_le (c : Config) (T : ScalarType) (vs : List Int) (m : Memory) (hc : c.legal = true)
    (hn : vs.length ≤ 65535) : secondField (load c T vs m).response ≤ 65535 := by
  have hlegal := capBytes_le_of_legal hc
  obtain ⟨-, hl⟩ | ⟨-, k, v, hk, -, -, hl⟩ | ⟨hcap, -, hl⟩ := load_cases c T vs m
  · rw [hl]
    exact hn
  · obtain ⟨hk, -⟩ := List.getElem?_eq_some_iff.mp hk
    rw [hl]
    exact (Nat.le_of_lt hk).trans hn
  · rw [hl, secondField_storeAndAnswer, pack_length]
    omega

theorem secondField_viewScalars (T : ScalarType) (m : Memory) :
    secondField (viewScalars T m).response = m.length / scalarWidth T := view_length T m

theorem secondField_viewBytes (m : Memory) : secondField (viewBytes m).response = m.length := rfl

theorem secondField_viewHex (m : Memory) : secondField (viewHex m).response = 5 * (m.length / 2) - 1 := hexText_length m

theorem secondField_viewText_le (map : Byte → Option CodePoint) (m : Memory) :
    secondField (viewText map m).response ≤ m.length := by
  obtain ⟨hok, herr⟩ := textOf_bounds map m
  obtain ⟨cs, ht, hv⟩ | ⟨k, ht, hv⟩ := viewText_cases map m
  · rw [hv]
    exact hok cs ht
  · rw [hv]
    exact (herr k ht).le

theorem secondField_orderSwapBytes (m : Memory) : secondField (orderSwapBytes m).response = m.length / 2 := by
  rw [orderSwapBytes, secondField_storeAndAnswer, swapPairs_length]

theorem secondField_orderSwapWords (c : Config) (m : Memory) : secondField (orderSwapWords c m).response = m.length / 2 := by
  obtain hs | ⟨-, -, hs⟩ := orderSwapWords_cases c m
  · rw [hs, secondField_storeAndAnswer, swapGroups_length]
  · rw [hs]
    rfl

end Sys2Proof.Machine
end

section
/-! PROOFS. A decoded command is one the port can carry (30_encoding.md R37, R38). -/

namespace Sys2Proof

/-- Data words as many as the count word asks for are operands the port can carry. -/
theorem wellFormed_loadOf (T : ScalarType) (n : Word) (data : List Word) (h : data.length = n.toNat * T.operandWords) :
    (loadOf T data).wellFormed = true := by
  have hn : n.toNat ≤ 65535 := Nat.le_of_lt_succ n.isLt
  cases T with
  | u16 | i16 | u32 | i32 | u64 | i64 =>
    obtain ⟨-, hlen, hfit⟩ := elements_of_intElements n.toNat data h
    simpa [loadOf, Instr.wellFormed, intOperandsFit, countFits, hlen, hn] using hfit
  | f32 =>
    obtain ⟨-, hlen⟩ := elements_of_f32Elements n.toNat data h
    simpa [loadOf, Instr.wellFormed, countFits, hlen] using hn
  | f64 =>
    obtain ⟨-, hlen⟩ := elements_of_f64Elements n.toNat data h
    simpa [loadOf, Instr.wellFormed, countFits, hlen] using hn
  | words =>
    have hlen : data.length = n.toNat := by simpa [ScalarType.operandWords] using h
    simpa [loadOf, Instr.wellFormed, countFits, hlen] using hn

/-- What a load's words decode to: the load of its type on data words as many as the count asks for. -/
theorem decodeLoad_eq_ok {h : Word} {rest : List Word} {i : Instr} (hd : decodeLoad h rest = .ok i) :
    ∃ T n data, loadType (headerTyp h) = some T ∧ headerArg h = 0 ∧ rest = n :: data ∧
      data.length = n.toNat * T.operandWords ∧ i = loadOf T data := by
  unfold decodeLoad at hd
  split at hd
  · cases hd
  · rename_i T hT
    split at hd
    · cases hd
    · rename_i harg
      split at hd
      · cases hd
      · rename_i n data
        split at hd
        · cases hd
        · rename_i hlen
          cases hd
          exact ⟨T, n, data, hT, by simpa using harg, rfl, by simpa using hlen, rfl⟩

/-- What a view's words decode to: RD.TEXT with a supported encoding, or the view of its type with no argument. -/
theorem decodeView_eq_ok {h : Word} {rest : List Word} {i : Instr} (hd : decodeView h rest = .ok i) :
    rest = [] ∧ ((headerTyp h = 11 ∧ ∃ enc, TextEnc.ofSelector (headerArg h) = some enc ∧ i = .rdText enc) ∨
      (headerArg h = 0 ∧ viewOf (headerTyp h) = some i)) := by
  unfold decodeView at hd
  split at hd
  · cases hd
  · split at hd
    · cases hd
    · rename_i hrest
      refine ⟨by simpa using hrest, ?_⟩
      split at hd
      · rename_i htyp
        split at hd
        · cases hd
        · rename_i enc henc
          cases hd
          exact .inl ⟨htyp, enc, henc, rfl⟩
      · split at hd
        · cases hd
        · rename_i harg
          split at hd
          · cases hd
          · rename_i hview
            cases hd
            exact .inr ⟨by simpa using harg, hview⟩

/-- What a transform's words decode to: one of the two swaps, its header standing alone with no argument. -/
theorem decodeSwap_eq_ok {h : Word} {rest : List Word} {i : Instr} (hd : decodeSwap h rest = .ok i) :
    rest = [] ∧ headerArg h = 0 ∧ ((headerTyp h = 0 ∧ i = .swapBytes) ∨ (headerTyp h = 1 ∧ i = .swapWords)) := by
  unfold decodeSwap at hd
  split at hd
  · cases hd
  · rename_i htyp
    split at hd
    · cases hd
    · rename_i harg
      split at hd
      · cases hd
      · rename_i hrest
        refine ⟨by simpa using hrest, by simpa using harg, ?_⟩
        split at hd
        · rename_i h0
          cases hd
          exact .inl ⟨h0, rfl⟩
        · rename_i h0
          cases hd
          exact .inr ⟨by omega, rfl⟩

/-- The class of the header says which decoder read the command. -/
theorem decode_eq_ok {c : Transaction} {i : Instr} (hd : decode c = .ok i) :
    ∃ h rest, c = h :: rest ∧ ((headerCls h = 1 ∧ decodeLoad h rest = .ok i) ∨
      (headerCls h = 2 ∧ decodeView h rest = .ok i) ∨ (headerCls h = 3 ∧ decodeSwap h rest = .ok i)) := by
  cases c with
  | nil => cases hd
  | cons h rest =>
    refine ⟨h, rest, rfl, ?_⟩
    simp only [decode] at hd
    split at hd
    · rename_i hcls
      exact .inl ⟨hcls, hd⟩
    · split at hd
      · rename_i hcls
        exact .inr (.inl ⟨hcls, hd⟩)
      · split at hd
        · rename_i hcls
          exact .inr (.inr ⟨hcls, hd⟩)
        · cases hd

/-- A view of the table has no operand that could be ill-formed. -/
theorem wellFormed_of_viewOf {t : Nat} {i : Instr} (h : viewOf t = some i) : i.wellFormed = true := by
  unfold viewOf at h
  split at h <;> cases h <;> rfl

theorem wellFormed_of_decode {c : Transaction} {i : Instr} (hd : decode c = .ok i) : i.wellFormed = true := by
  obtain ⟨h, rest, -, ⟨-, hload⟩ | ⟨-, hview⟩ | ⟨-, hswap⟩⟩ := decode_eq_ok hd
  · obtain ⟨T, n, data, -, -, -, hlen, rfl⟩ := decodeLoad_eq_ok hload
    exact wellFormed_loadOf T n data hlen
  · obtain ⟨-, ⟨-, enc, -, rfl⟩ | ⟨-, hi⟩⟩ := decodeView_eq_ok hview
    · rfl
    · exact wellFormed_of_viewOf hi
  · obtain ⟨-, -, ⟨-, rfl⟩ | ⟨-, rfl⟩⟩ := decodeSwap_eq_ok hswap <;> rfl

theorem le_of_countFits {n : Nat} (h : countFits n = true) : n ≤ 65535 := of_decide_eq_true h

/-- The count of operands of an integer load the port can carry fits the count word. -/
theorem length_le_of_intOperandsFit {vs : List Int} (h : intOperandsFit vs = true) : vs.length ≤ 65535 := by
  obtain ⟨hcount, -⟩ := (Bool.and_eq_true _ _).mp h
  exact le_of_countFits hcount

end Sys2Proof
end

section
/-! PROOFS. The function of the buffer that a command, and so a step on a pending command, performs (10_state.md R10, 20_memory.md
R30). -/

namespace Sys2Proof.Machine

/-- What a command makes of the buffer, with the response it gives. -/
def completionOf (i : Instr) (m : Memory) : Completion :=
  match i with
  | .ldU16 vs => load Config.thisHardware .u16 vs m
  | .ldI16 vs => load Config.thisHardware .i16 vs m
  | .ldU32 vs => load Config.thisHardware .u32 vs m
  | .ldI32 vs => load Config.thisHardware .i32 vs m
  | .ldU64 vs => load Config.thisHardware .u64 vs m
  | .ldI64 vs => load Config.thisHardware .i64 vs m
  | .ldF32 vs => load Config.thisHardware .f32 (vs.map fun v => (v.toNat : Int)) m
  | .ldF64 vs => load Config.thisHardware .f64 (vs.map fun v => (v.toNat : Int)) m
  | .ldWords vs => load Config.thisHardware .words (vs.map fun v => (v.toNat : Int)) m
  | .rdU16 => viewScalars .u16 m
  | .rdI16 => viewScalars .i16 m
  | .rdU32 => viewScalars .u32 m
  | .rdI32 => viewScalars .i32 m
  | .rdU64 => viewScalars .u64 m
  | .rdI64 => viewScalars .i64 m
  | .rdF32 => viewScalars .f32 m
  | .rdF64 => viewScalars .f64 m
  | .rdWords => viewScalars .words m
  | .rdBytes => viewBytes m
  | .rdHex => viewHex m
  | .rdText enc => viewText (encodingMap enc) m
  | .swapBytes => orderSwapBytes m
  | .swapWords => orderSwapWords Config.thisHardware m

/-- A command is its completion, performed. -/
theorem exec_eq_perform (i : Instr) (s : State) : exec i s = perform (completionOf i) s := by
  cases i <;> rfl

/-- What a command's words make of the buffer: the completion of the command they decode to, or IllegalCommand. -/
def commandCompletion (c : Transaction) (m : Memory) : Completion :=
  match decode c with
  | .ok i => completionOf i m
  | .error _ => illegalCommand m

theorem commandCompletion_of_ok {c : Transaction} {i : Instr} (h : decode c = .ok i) (m : Memory) :
    commandCompletion c m = completionOf i m := by
  simp only [commandCompletion, h]

theorem commandCompletion_of_error {c : Transaction} {e : Illegal} (h : decode c = .error e) (m : Memory) :
    commandCompletion c m = illegalCommand m := by
  simp only [commandCompletion, h]

/-- A step on a pending command takes it from the pending events and completes it. -/
theorem step_of_pending_command {s : State} {c : Transaction} {rest : List HostEvent} (h : s.pending = .command c :: rest) :
    step s = .next (({ s with pending := rest } : State).complete (commandCompletion c s.buf)) := by
  obtain ⟨hp, -⟩ | ⟨c', rest', hp, -⟩ | ⟨c', rest', e, hp, hd, hs⟩ | ⟨c', rest', i, hp, hd, hs⟩ := step_cases s
  · cases h.symm.trans hp
  · cases h.symm.trans hp
  · cases h.symm.trans hp
    rw [hs, perform, commandCompletion_of_error hd]
  · cases h.symm.trans hp
    rw [hs, exec_eq_perform, perform, commandCompletion_of_ok hd]

/-- A step that appends a response has completed a pending command. -/
theorem response_of_step {s t : State} {r : Response} (hs : step s = .next t) (hr : t.responses = s.responses ++ [r]) :
    ∃ c rest, s.pending = .command c :: rest ∧ r = (commandCompletion c s.buf).response := by
  have hne : s.responses ≠ s.responses ++ [r] := by simp
  cases hp : s.pending with
  | nil =>
    obtain rfl : s = t := by simpa [step, hp] using hs
    exact absurd hr hne
  | cons e rest =>
    cases e with
    | command c =>
      obtain rfl := Host.Outcome.next.inj ((step_of_pending_command hp).symm.trans hs)
      exact ⟨c, rest, rfl, by simpa using hr.symm⟩
    | reset c =>
      obtain rfl : resetEvent { s with pending := rest } = t := by simpa [step, hp] using hs
      exact absurd hr hne

end Sys2Proof.Machine
end

section
/-! PROOFS. The statements of 00_scope.md. -/

namespace Sys2Proof.Machine

/-- Within the capacity of this hardware a command that the port can carry answers a count or an `info` of one word. -/
theorem secondField_completionOf_le {i : Instr} {m : Memory} (hi : i.wellFormed = true) (hm : m.length ≤ 256) :
    secondField (completionOf i m).response ≤ 65535 := by
  have hscalars (T : ScalarType) : secondField (viewScalars T m).response ≤ 65535 := by
    rw [secondField_viewScalars]
    exact (Nat.div_le_self _ _).trans (by omega)
  cases i with
  | ldU16 vs | ldI16 vs | ldU32 vs | ldI32 vs | ldU64 vs | ldI64 vs =>
    exact secondField_load_le _ _ _ _ legal_thisHardware (length_le_of_intOperandsFit hi)
  | ldF32 vs | ldF64 vs | ldWords vs =>
    exact secondField_load_le _ _ _ _ legal_thisHardware ((List.length_map _).trans_le (le_of_countFits hi))
  | rdU16 | rdI16 | rdU32 | rdI32 | rdU64 | rdI64 | rdF32 | rdF64 | rdWords => exact hscalars _
  | rdBytes =>
    rw [completionOf, secondField_viewBytes]
    omega
  | rdHex =>
    rw [completionOf, secondField_viewHex]
    omega
  | rdText enc => exact (secondField_viewText_le _ m).trans (by omega)
  | swapBytes =>
    rw [completionOf, secondField_orderSwapBytes]
    omega
  | swapWords =>
    rw [completionOf, secondField_orderSwapWords]
    omega

/-- The same of any words on the command port: the words that are no command answer 0. -/
theorem secondField_commandCompletion_le (c : Transaction) {m : Memory} (hm : m.length ≤ 256) :
    secondField (commandCompletion c m).response ≤ 65535 := by
  cases hd : decode c with
  | ok i =>
    rw [commandCompletion_of_ok hd]
    exact secondField_completionOf_le (wellFormed_of_decode hd) hm
  | error e =>
    rw [commandCompletion_of_error hd]
    exact Nat.zero_le _

/-- Settles O43: a step that answers has completed a command, and a decoded load has at most 65535 elements. -/
theorem countsAndInfosFitOneWord : Obligations.CountsAndInfosFitOneWord := by
  intro s t r _ hm hs hr
  obtain ⟨c, rest, -, rfl⟩ := response_of_step hs hr
  exact ⟨secondField_commandCompletion_le c hm, statusCode_le_five _⟩

/-- Settles O44: the writes keep the invariant of any configuration, and at 13107 words the hexadecimal text has 65534
characters. -/
theorem everyLegalConfigurationKeepsItsBounds : Obligations.EveryLegalConfigurationKeepsItsBounds := by
  intro c m hc hm
  refine ⟨fun T vs => bufferInv_load c T vs m hm, bufferInv_orderSwapBytes c m hm, bufferInv_orderSwapWords c m hm, ?_⟩
  have hcap : m.length ≤ 26214 := hm.2.trans (capBytes_le_of_legal hc)
  rw [hexText_length]
  omega

end Sys2Proof.Machine
end

section
/-! PROOFS. The statements of 10_state.md. -/

namespace Sys2Proof.Machine

/-! ### The invariant under commands -/

/-- RD.TEXT leaves the buffer, whether the bytes decode or not (41_view_unpack.md R80). -/
@[simp] theorem viewText_buf (map : Byte → Option CodePoint) (m : Memory) : (viewText map m).buf = m := by
  obtain ⟨cs, -, hv⟩ | ⟨k, -, hv⟩ := viewText_cases map m
  · rw [hv, answer_buf]
  · rw [hv, raise_buf]

/-- Loads and transforms keep the invariant by what they write, views because they write nothing. -/
theorem bufferInv_completionOf (i : Instr) {m : Memory} (h : BufferInv Config.thisHardware m) :
    BufferInv Config.thisHardware (completionOf i m).buf := by
  cases i with
  | ldU16 vs | ldI16 vs | ldU32 vs | ldI32 vs | ldU64 vs | ldI64 vs | ldF32 vs | ldF64 vs | ldWords vs =>
    exact bufferInv_load _ _ _ m h
  | rdU16 | rdI16 | rdU32 | rdI32 | rdU64 | rdI64 | rdF32 | rdF64 | rdWords | rdBytes | rdHex => exact h
  | rdText enc =>
    rw [completionOf, viewText_buf]
    exact h
  | swapBytes => exact bufferInv_orderSwapBytes _ m h
  | swapWords => exact bufferInv_orderSwapWords _ m h

/-! ### The invariant at reset and under steps -/

/-- The empty buffer meets the invariant of every configuration. -/
theorem bufferInv_nil (c : Config) : BufferInv c [] := ⟨rfl, Nat.zero_le _⟩

theorem stateInv_reset : StateInv State.reset := bufferInv_nil _

theorem stateInv_step {s t : State} (h : StateInv s) (hs : step s = .next t) : StateInv t := by
  obtain ⟨-, hn⟩ | ⟨-, rest, -, hn⟩ | ⟨-, rest, -, -, -, hn⟩ | ⟨-, rest, i, -, -, hn⟩ := step_cases s
  · cases hn.symm.trans hs
    exact h
  · cases hn.symm.trans hs
    exact bufferInv_nil _
  · cases hn.symm.trans hs
    exact h
  · rw [exec_eq_perform] at hn
    cases hn.symm.trans hs
    exact bufferInv_completionOf i h

/-- The capacity of this hardware in bytes (00_scope.md R5). -/
theorem capBytes_thisHardware : Config.thisHardware.capBytes = 256 := rfl

/-- The invariant of this hardware's states with the capacity written out. -/
theorem stateInv_iff (s : State) : StateInv s ↔ s.buf.length % 2 = 0 ∧ s.buf.length ≤ 256 := by
  rw [StateInv, BufferInv, capBytes_thisHardware]

/-- Settles O2: the reset buffer is empty. -/
theorem bufferInvariantHoldsAtReset : Obligations.BufferInvariantHoldsAtReset := (stateInv_iff _).mp stateInv_reset

/-- Settles O3: an idle step and an illegal command leave the buffer, a reset empties it, and every command keeps the
invariant. -/
theorem stepKeepsBufferInvariant : Obligations.StepKeepsBufferInvariant := by
  intro s t heven hcap hs
  exact (stateInv_iff t).mp (stateInv_step ((stateInv_iff s).mpr ⟨heven, hcap⟩) hs)

end Sys2Proof.Machine
end

section
/-! PROOFS. The statements of 20_memory.md. -/

namespace Sys2Proof.Machine

open Sys2Proof.Statements

/-! ### One step on the oldest event -/

/-- `commandCompletion` is the step function of the block: a step hands it the command and the buffer, and nothing else. -/
theorem step_command (c : Transaction) (m : Memory) (later : List HostEvent) (rs : List Response) :
    step { buf := m, pending := .command c :: later, responses := rs }
      = .next { buf := (commandCompletion c m).buf, pending := later, responses := rs ++ [(commandCompletion c m).response] } :=
  step_of_pending_command rfl

theorem step_reset (inProgress : Option Transaction) (m : Memory) (later : List HostEvent) (rs : List Response) :
    step { buf := m, pending := .reset inProgress :: later, responses := rs }
      = .next { buf := [], pending := later, responses := rs } := rfl

/-- The oldest event fixes the buffer and the responses of a step, whatever is pending behind it (20_memory.md R29). -/
theorem step_first_event (e : HostEvent) (m : Memory) (rs : List Response) :
    ∃ m' rs', ∀ later, step { buf := m, pending := e :: later, responses := rs }
      = .next { buf := m', pending := later, responses := rs' } := by
  cases e with
  | command c => exact ⟨_, _, fun later => step_command c m later rs⟩
  | reset inProgress => exact ⟨_, _, fun later => step_reset inProgress m later rs⟩

/-! ### Runs over a list of events -/

/-- A run over a list of events fixes the buffer and the responses, and leaves pending whatever stood behind the list. -/
theorem run_first_events (es : List HostEvent) (m : Memory) (rs : List Response) :
    ∃ m' rs', ∀ later, Host.Core.run core es.length { buf := m, pending := es ++ later, responses := rs }
      = .next { buf := m', pending := later, responses := rs' } := by
  induction es generalizing m rs with
  | nil => exact ⟨m, rs, fun _ => rfl⟩
  | cons e es ih =>
    obtain ⟨m₁, rs₁, hstep⟩ := step_first_event e m rs
    obtain ⟨m₂, rs₂, hrun⟩ := ih m₁ rs₁
    exact ⟨m₂, rs₂, fun later => (run_succ _ _ _ (hstep (es ++ later))).trans (hrun later)⟩

/-- A run over a list of commands is the fold of the list over the block's step function. -/
theorem run_commands (m : Memory) (cs : List Transaction) (rs : List Response) :
    Host.Core.run core cs.length { buf := m, pending := cs.map .command, responses := rs }
      = .next { buf := (foldCommands commandCompletion m cs).1, pending := [],
                responses := rs ++ (foldCommands commandCompletion m cs).2 } := by
  induction cs generalizing m rs with
  | nil => simp [Host.Core.run, foldCommands]
  | cons c cs ih =>
    rw [List.length_cons, List.map_cons, run_succ _ _ _ (step_command c m _ rs), ih]
    simp [foldCommands]

/-- Settles O47: the function is `commandCompletion`, which one step applies, and the run follows by induction on the list. -/
theorem bufferIsTheFoldOfTheCommands : Obligations.BufferIsTheFoldOfTheCommands :=
  ⟨commandCompletion, step_command, run_commands⟩

/-- Settles O9: the run with the later events behind it and the run alone are one run, with `later` and with nothing left. -/
theorem laterCommandsDoNotAffectEarlierOnes : Obligations.LaterCommandsDoNotAffectEarlierOnes := by
  intro m rs es later
  obtain ⟨m', rs', hrun⟩ := run_first_events es m rs
  have halone := hrun []
  rw [List.append_nil] at halone
  exact ⟨{ buf := m', pending := [], responses := rs' }, halone, hrun later⟩

end Sys2Proof.Machine
end

section
/-! PROOFS. Decoder and encoder are inverse to each other, and what the decoder makes of written words (30_encoding.md R36 to
R43). -/

namespace Sys2Proof

/-! ### Type codes and loads -/

@[simp] theorem loadType_code (T : ScalarType) : loadType T.code = some T := by cases T <;> rfl

theorem code_le_eight (T : ScalarType) : T.code ≤ 8 := by cases T <;> decide

/-- A `typ` field selects the type whose code it is. -/
theorem eq_code_of_loadType {t : Nat} {T : ScalarType} (h : loadType t = some T) : t = T.code := by
  unfold loadType at h
  split at h <;> cases h <;> rfl

/-- A load's words with as many data words as the count asks for decode to the load on those data (30_encoding.md R37). -/
theorem decode_encodeLoad (T : ScalarType) (n : Nat) (data : List Word) (hn : n ≤ 65535)
    (hlen : data.length = n * T.operandWords) : decode (encodeLoad T n data) = .ok (loadOf T data) := by
  have hcode : T.code < 16 := (code_le_eight T).trans_lt (by decide)
  have hcount : (BitVec.ofNat 16 n).toNat = n := Nat.mod_eq_of_lt (Nat.lt_succ_of_le hn)
  simp [decode, encodeLoad, decodeLoad, headerCls_headerWord, headerTyp_headerWord, headerArg_headerWord, hcode, hcount, hlen]

theorem elementFits_of_intOperandsFit {vs : List Int} (h : intOperandsFit vs = true) : ∀ v ∈ vs, elementFits v = true := by
  obtain ⟨-, hall⟩ := (Bool.and_eq_true _ _).mp h
  exact List.all_eq_true.mp hall

/-- The words of integer operands that the port can carry decode to the load of those operands. -/
theorem decode_encodeLoad_ints {T : ScalarType} (hT : T.operandWords = 5) {vs : List Int} (h : intOperandsFit vs = true) :
    decode (encodeLoad T vs.length (vs.flatMap intElement)) = .ok (loadOf T (vs.flatMap intElement)) :=
  decode_encodeLoad T _ _ (length_le_of_intOperandsFit h) (by rw [hT, flatMap_length_const _ 5 intElement_length])

/-! ### The round trip from the command -/

/-- Settles O12: a load's data words are read back as its operands, and the header of every other command names it. -/
theorem decodeOfEncodeIsTheCommand : Obligations.DecodeOfEncodeIsTheCommand := by
  intro i hi
  cases i with
  | ldU16 vs | ldI16 vs | ldU32 vs | ldI32 vs | ldU64 vs | ldI64 vs =>
    rw [encode, decode_encodeLoad_ints rfl hi, loadOf, intElements_of_elements vs (elementFits_of_intOperandsFit hi)]
  | ldF32 vs =>
    rw [encode, decode_encodeLoad _ _ _ (le_of_countFits hi) (flatMap_length_const _ 2 f32Element_length vs), loadOf,
      f32Elements_of_elements]
  | ldF64 vs =>
    rw [encode, decode_encodeLoad _ _ _ (le_of_countFits hi) (flatMap_length_const _ 4 f64Element_length vs), loadOf,
      f64Elements_of_elements]
  | ldWords vs => rw [encode, decode_encodeLoad _ _ _ (le_of_countFits hi) (Nat.mul_one _).symm, loadOf]
  | rdText enc => cases enc <;> rfl
  | rdU16 | rdI16 | rdU32 | rdI32 | rdU64 | rdI64 | rdF32 | rdF64 | rdWords | rdBytes | rdHex | swapBytes | swapWords => rfl

/-! ### The round trip from the words -/

/-- The header with the fields of a word is that word. -/
theorem headerWord_eq {h : Word} {cls typ arg : Nat} (hc : headerCls h = cls) (ht : headerTyp h = typ) (ha : headerArg h = arg) :
    headerWord cls typ arg = h := by
  rw [← hc, ← ht, ← ha, headerWord_fields]

/-- The load of data words as many as the count asks for is encoded as that count and those data words. -/
theorem encode_loadOf (T : ScalarType) (n : Nat) (data : List Word) (hlen : data.length = n * T.operandWords) :
    encode (loadOf T data) = encodeLoad T n data := by
  cases T with
  | u16 | i16 | u32 | i32 | u64 | i64 =>
    obtain ⟨hdata, hcount, -⟩ := elements_of_intElements n data hlen
    rw [loadOf, encode, hdata, hcount]
  | f32 =>
    obtain ⟨hdata, hcount⟩ := elements_of_f32Elements n data hlen
    rw [loadOf, encode, hdata, hcount]
  | f64 =>
    obtain ⟨hdata, hcount⟩ := elements_of_f64Elements n data hlen
    rw [loadOf, encode, hdata, hcount]
  | words => rw [loadOf, encode, hlen, ScalarType.operandWords, Nat.mul_one]

theorem encode_of_viewOf {t : Nat} {i : Instr} (h : viewOf t = some i) : encode i = [headerWord 2 t 0] := by
  unfold viewOf at h
  split at h <;> cases h <;> rfl

theorem selector_of_ofSelector {a : Nat} {enc : TextEnc} (h : TextEnc.ofSelector a = some enc) : enc.selector = a := by
  unfold TextEnc.ofSelector at h
  split at h <;> cases h <;> rfl

/-- The words of a command are read off the decoder that accepted them. -/
theorem encode_of_decode {c : Transaction} {i : Instr} (hd : decode c = .ok i) : encode i = c := by
  obtain ⟨h, rest, rfl, ⟨hcls, hload⟩ | ⟨hcls, hview⟩ | ⟨hcls, hswap⟩⟩ := decode_eq_ok hd
  · obtain ⟨T, n, data, htyp, harg, rfl, hlen, rfl⟩ := decodeLoad_eq_ok hload
    rw [encode_loadOf T n.toNat data hlen, encodeLoad, BitVec.ofNat_toNat, BitVec.setWidth_eq,
      headerWord_eq hcls (eq_code_of_loadType htyp) harg]
  · obtain ⟨rfl, ⟨htyp, enc, henc, rfl⟩ | ⟨harg, hi⟩⟩ := decodeView_eq_ok hview
    · rw [encode, selector_of_ofSelector henc, headerWord_eq hcls htyp rfl]
    · rw [encode_of_viewOf hi, headerWord_eq hcls rfl harg]
  · obtain ⟨rfl, harg, ⟨htyp, rfl⟩ | ⟨htyp, rfl⟩⟩ := decodeSwap_eq_ok hswap
    · rw [encode, headerWord_eq hcls htyp harg]
    · rw [encode, headerWord_eq hcls htyp harg]

/-- Settles O13: the header is its three fields, and the data words are those of the operands read from them. -/
theorem encodeOfDecodeIsTheWords : Obligations.EncodeOfDecodeIsTheWords :=
  fun _ _ hd => ⟨encode_of_decode hd, wellFormed_of_decode hd⟩

end Sys2Proof
end

section
/-! PROOFS. What the decoder makes of words written out: operand elements, fixed words, reserved encodings (30_encoding.md R36 to
R43). -/

namespace Sys2Proof

open Sys2Proof.Statements

/-! ### The value of an operand element -/

/-- A word after other bits is their value times 65536 plus its own. -/
theorem toNat_append_word {n : Nat} (x : BitVec n) (w : Word) : (x ++ w).toNat = x.toNat * 65536 + w.toNat := by
  rw [BitVec.toNat_append, ← Nat.shiftLeft_add_eq_or_of_lt w.isLt, Nat.shiftLeft_eq]

/-- The two's-complement reading of a pattern is the signed reading of its value. -/
theorem toInt_eq_signedReading {n : Nat} (x : BitVec (n + 1)) : x.toInt = signedReading (n + 1) x.toNat := by
  have hpow : 2 ^ (n + 1) = 2 * 2 ^ n := Nat.pow_succ'
  simp only [BitVec.toInt_eq_toNat_cond, signedReading, Nat.add_sub_cancel, hpow, Nat.mul_lt_mul_left (Nat.zero_lt_two)]
  push_cast [pow_succ']
  rfl

theorem toInt_five_words (a b c d e : Word) : (a ++ b ++ c ++ d ++ e : BitVec 80).toInt = fiveWordValue (a, b, c, d, e) := by
  rw [toInt_eq_signedReading, toNat_append_word, toNat_append_word, toNat_append_word, toNat_append_word, fiveWordValue]

/-- An element holds a value of 80 bits (30_encoding.md R38). -/
theorem fiveWordValue_bounds (e : Word × Word × Word × Word × Word) : -(2 ^ 79) ≤ fiveWordValue e ∧ fiveWordValue e < 2 ^ 79 := by
  obtain ⟨a, b, c, d, e⟩ := e
  rw [← toInt_five_words]
  exact ⟨BitVec.le_toInt _, BitVec.toInt_lt⟩

theorem eq_ofNat_of_toNat_eq {n v : Nat} {x : BitVec n} (h : x.toNat = v) : x = BitVec.ofNat n v := by
  rw [← h, BitVec.ofNat_toNat, BitVec.setWidth_eq]

/-! ### Element lists -/

theorem intElements_of_words (es : List (Word × Word × Word × Word × Word)) :
    intElements (es.flatMap fun e => [e.1, e.2.1, e.2.2.1, e.2.2.2.1, e.2.2.2.2]) = es.map fiveWordValue := by
  induction es with
  | nil => rfl
  | cons e es ih =>
    rw [List.map_cons, ← ih, ← toInt_five_words]
    rfl

theorem f32Elements_of_words (es : List (Word × Word)) :
    f32Elements (es.flatMap fun e => [e.1, e.2]) = es.map fun e => BitVec.ofNat 32 (e.1.toNat * 65536 + e.2.toNat) := by
  induction es with
  | nil => rfl
  | cons e es ih =>
    rw [List.map_cons, ← ih, ← eq_ofNat_of_toNat_eq (toNat_append_word e.1 e.2)]
    rfl

theorem f64Elements_of_words (es : List (Word × Word × Word × Word)) :
    f64Elements (es.flatMap fun e => [e.1, e.2.1, e.2.2.1, e.2.2.2]) = es.map fun e => BitVec.ofNat 64
      (((e.1.toNat * 65536 + e.2.1.toNat) * 65536 + e.2.2.1.toNat) * 65536 + e.2.2.2.toNat) := by
  induction es with
  | nil => rfl
  | cons e es ih =>
    have hval : (e.1 ++ e.2.1 ++ e.2.2.1 ++ e.2.2.2 : BitVec 64).toNat =
        ((e.1.toNat * 65536 + e.2.1.toNat) * 65536 + e.2.2.1.toNat) * 65536 + e.2.2.2.toNat := by
      rw [toNat_append_word, toNat_append_word, toNat_append_word]
    rw [List.map_cons, ← ih, ← eq_ofNat_of_toNat_eq hval]
    rfl

/-! ### Loads written out -/

/-- An integer load reads its data words as five-word elements. -/
theorem readsFiveWordElements {T : ScalarType} (hT : T.operandWords = 5) {mk : List Int → Instr}
    (hmk : ∀ data, loadOf T data = mk (intElements data)) : ReadsFiveWordElements mk (headerWord 1 T.code 0) := by
  intro es hn
  have hdec := decode_encodeLoad T es.length (es.flatMap fun e => [e.1, e.2.1, e.2.2.1, e.2.2.2.1, e.2.2.2.2]) hn
    (by rw [hT, flatMap_length_const _ 5 (fun _ => rfl)])
  rwa [hmk, intElements_of_words] at hdec

/-- Settles O16: five words are an 80-bit two's-complement pattern, and the decoder takes five at a time. -/
theorem integerElementIsSignExtendedEightyBits : Obligations.IntegerElementIsSignExtendedEightyBits :=
  ⟨fiveWordValue_bounds,
    readsFiveWordElements (T := .u16) rfl fun _ => rfl, readsFiveWordElements (T := .i16) rfl fun _ => rfl,
    readsFiveWordElements (T := .u32) rfl fun _ => rfl, readsFiveWordElements (T := .i32) rfl fun _ => rfl,
    readsFiveWordElements (T := .u64) rfl fun _ => rfl, readsFiveWordElements (T := .i64) rfl fun _ => rfl⟩

/-- Settles O14: the decoder evaluates on fixed words. -/
theorem writtenWordsDecode : Obligations.WrittenWordsDecode := by
  refine ⟨?_, ?_, ?_, ?_, ?_, ?_⟩ <;> decide

/-! ### Reserved encodings -/

/-- A header written as arithmetic on its fields is the header word of those fields. -/
theorem eq_headerWord_of_toNat {h : Word} {cls typ arg : Nat} (hh : h.toNat = 4096 * cls + 256 * typ + arg) :
    h = headerWord cls typ arg := eq_ofNat_of_toNat_eq hh

/-- The fields and the further words a command can have, by the format of its class (30_encoding.md R37, R40, R41). -/
inductive LegalWords : Nat → Nat → Nat → List Word → Prop where
  | load (T : ScalarType) (n : Word) (data : List Word) (hlen : data.length = n.toNat * T.operandWords) :
      LegalWords 1 T.code 0 (n :: data)
  | view (typ : Nat) (htyp : typ < 11) : LegalWords 2 typ 0 []
  | text (arg : Nat) (harg : arg < 2) : LegalWords 2 11 arg []
  | swap (typ : Nat) (htyp : typ < 2) : LegalWords 3 typ 0 []

theorem selector_lt_two (enc : TextEnc) : enc.selector < 2 := by cases enc <;> decide

theorem lt_eleven_of_viewOf {t : Nat} {i : Instr} (h : viewOf t = some i) : t < 11 := by
  unfold viewOf at h
  split at h <;> cases h <;> decide

/-- Words that decode have the form of a command. -/
theorem legalWords_of_decode {h : Word} {rest : List Word} {i : Instr} (hd : decode (h :: rest) = .ok i) :
    LegalWords (headerCls h) (headerTyp h) (headerArg h) rest := by
  obtain ⟨h, rest, ⟨⟩, ⟨hcls, hload⟩ | ⟨hcls, hview⟩ | ⟨hcls, hswap⟩⟩ := decode_eq_ok hd
  · obtain ⟨T, n, data, htyp, harg, rfl, hlen, -⟩ := decodeLoad_eq_ok hload
    rw [hcls, eq_code_of_loadType htyp, harg]
    exact .load T n data hlen
  · obtain ⟨rfl, ⟨htyp, enc, henc, -⟩ | ⟨harg, hi⟩⟩ := decodeView_eq_ok hview
    · rw [hcls, htyp, ← selector_of_ofSelector henc]
      exact .text _ (selector_lt_two enc)
    · rw [hcls, harg]
      exact .view _ (lt_eleven_of_viewOf hi)
  · obtain ⟨rfl, harg, ⟨htyp, -⟩ | ⟨htyp, -⟩⟩ := decodeSwap_eq_ok hswap
    · rw [hcls, htyp, harg]
      exact .swap 0 (by decide)
    · rw [hcls, htyp, harg]
      exact .swap 1 (by decide)

/-- Settles O15: each reserved or malformed form differs from the forms of the commands. -/
theorem reservedEncodingsAreIllegal : Obligations.ReservedEncodingsAreIllegal := by
  refine ⟨⟨_, rfl⟩, ?_⟩
  intro h rest cls typ arg hh ht ha hbad
  have hc : cls < 16 := by have := h.isLt; omega
  cases hd : decode (h :: rest) with
  | error e => exact ⟨e, rfl⟩
  | ok i =>
    exfalso
    have hlegal := legalWords_of_decode hd
    rw [eq_headerWord_of_toNat hh, headerCls_headerWord _ _ _ hc ht ha, headerTyp_headerWord _ _ _ ht ha,
      headerArg_headerWord _ _ _ ha] at hlegal
    cases hlegal with
    | load T n data hlen =>
      cases T with
      | u16 | i16 | u32 | i32 | u64 | i64 | f32 | f64 | words =>
        simp [ScalarType.code, ScalarType.operandWords] at hbad hlen
        omega
    | view typ htyp => simp at hbad; omega
    | text arg harg => simp at hbad; omega
    | swap typ htyp => simp at hbad; omega

end Sys2Proof
end

section
/-! PROOFS. What a step does with the command it decodes, and the frame of every command (30_encoding.md R29, R35, R42). -/

namespace Sys2Proof.Machine

/-- Settles O4: the one case of `step_cases` in which a pending command decodes. -/
theorem stepRunsDecodedCommand : Obligations.StepRunsDecodedCommand := by
  intro s c rest i hp hd
  rw [step_of_pending_command hp, commandCompletion_of_ok hd, exec_eq_perform, perform]

/-- Settles O7: an idle step and a reset answer nothing, a command's completion one response. -/
theorem everyCommandGetsOneResponse : Obligations.EveryCommandGetsOneResponse := by
  rintro ⟨⟨pending, rs⟩, m⟩
  cases pending with
  | nil => exact ⟨_, [], rfl, rfl, (List.append_nil rs).symm, rfl⟩
  | cons e later =>
    cases e with
    | command c => exact ⟨_, [(commandCompletion c m).response], step_of_pending_command rfl, rfl, rfl, rfl⟩
    | reset inProgress => exact ⟨_, [], rfl, rfl, (List.append_nil rs).symm, rfl⟩

/-- A view leaves the buffer it reads (41_view_unpack.md R80). -/
theorem completionOf_buf_of_isView {i : Instr} (h : isView i = true) (m : Memory) : (completionOf i m).buf = m := by
  cases i with
  | rdText enc => exact viewText_buf _ m
  | rdU16 | rdI16 | rdU32 | rdI32 | rdU64 | rdI64 | rdF32 | rdF64 | rdWords | rdBytes | rdHex => rfl
  | _ => cases h

/-- Settles O10: a command completes with its function of the buffer, which for a view gives the buffer back. -/
theorem everyCommandCompletesWithItsFrame : Obligations.EveryCommandCompletesWithItsFrame := by
  intro i s
  refine ⟨_, _, exec_eq_perform i s, rfl, rfl, fun hview off => ?_⟩
  rw [State.readByte, State.readByte, complete_buf, completionOf_buf_of_isView hview]

/-! ### Loads of patterns -/

/-- A pattern is in the range of the unsigned type of its width. -/
theorem inRange_pattern {n : Nat} {T : ScalarType} (hmin : scalarMin T = 0) (hmax : scalarMax T = 2 ^ n - 1) (v : BitVec n) :
    inRange T v.toNat = true := by
  have hv : (v.toNat : Int) < 2 ^ n := by exact_mod_cast v.isLt
  simp only [inRange, hmin, hmax, decide_eq_true_eq]
  omega

/-- A load of values in range has no RangeError. -/
theorem load_response_ne_rangeError {c : Config} {T : ScalarType} {vs : List Int} (h : ∀ v ∈ vs, inRange T v = true)
    (m : Memory) (k : Nat) : (load c T vs m).response ≠ .error (.rangeError k) := by
  obtain ⟨-, hl⟩ | ⟨-, j, v, hj, hv, -⟩ | ⟨-, -, hl⟩ := load_cases c T vs m
  · simp [hl]
  · rw [h v (List.mem_of_getElem? hj)] at hv
    cases hv
  · simp [hl]

/-- A load of patterns has no RangeError (30_encoding.md R39). -/
theorem load_patterns_response_ne_rangeError {n : Nat} {T : ScalarType} (hmin : scalarMin T = 0) (hmax : scalarMax T = 2 ^ n - 1)
    (c : Config) (vs : List (BitVec n)) (m : Memory) (k : Nat) :
    (load c T (vs.map fun v => (v.toNat : Int)) m).response ≠ .error (.rangeError k) := by
  refine load_response_ne_rangeError ?_ m k
  intro v hv
  obtain ⟨p, -, rfl⟩ := List.mem_map.mp hv
  exact inRange_pattern hmin hmax p

/-- Settles O48: the decoder reads the elements word by word, and every pattern is in its type's range. -/
theorem patternElementsAreMostSignificantWordFirst : Obligations.PatternElementsAreMostSignificantWordFirst := by
  refine ⟨?_, ?_, ?_, ?_⟩
  · intro es hn
    have hdec := decode_encodeLoad .f32 es.length (es.flatMap fun e => [e.1, e.2]) hn
      (flatMap_length_const _ 2 (fun _ => rfl) es)
    rwa [loadOf, f32Elements_of_words] at hdec
  · intro es hn
    have hdec := decode_encodeLoad .f64 es.length (es.flatMap fun e => [e.1, e.2.1, e.2.2.1, e.2.2.2]) hn
      (flatMap_length_const _ 4 (fun _ => rfl) es)
    rwa [loadOf, f64Elements_of_words] at hdec
  · intro ws hn
    exact decode_encodeLoad .words ws.length ws hn (Nat.mul_one _).symm
  · rintro i s (⟨vs, rfl⟩ | ⟨vs, rfl⟩ | ⟨vs, rfl⟩)
    · exact ⟨_, _, exec_eq_perform _ s, rfl, load_patterns_response_ne_rangeError rfl rfl _ vs _⟩
    · exact ⟨_, _, exec_eq_perform _ s, rfl, load_patterns_response_ne_rangeError rfl rfl _ vs _⟩
    · exact ⟨_, _, exec_eq_perform _ s, rfl, load_patterns_response_ne_rangeError rfl rfl _ vs _⟩

end Sys2Proof.Machine
end

section
/-! PROOFS. What the assembler accepts, the port carries (30_encoding.md R55, R56). -/

namespace Sys2Proof.Machine

/-! ### What an accepted operand list is -/

theorem exists_of_map_eq_ok {ε α β : Type} {f : α → β} {x : Except ε α} {b : β} (h : x.map f = .ok b) :
    ∃ a, x = .ok a ∧ f a = b := by
  cases x with
  | error e => cases h
  | ok a =>
    cases h
    exact ⟨a, rfl, rfl⟩

theorem intOperandsFit_of_asmInts {ls : List Literal} {vs : List Int} (h : asmInts ls = .ok vs) : intOperandsFit vs = true := by
  dsimp only [asmInts] at h
  split at h
  · rename_i hfit
    cases h
    exact hfit
  · cases h

theorem countFits_of_asmWords {ls : List Literal} {vs : List Word} (h : asmWords ls = .ok vs) : countFits vs.length = true := by
  dsimp only [asmWords] at h
  split at h
  · rename_i hfit
    cases h
    obtain ⟨hcount, -⟩ := (Bool.and_eq_true _ _).mp hfit
    rwa [List.length_map]
  · cases h

theorem countFits_of_asmFloats {bits : Nat} {ls : List Literal} {vs : List (BitVec bits)} (h : asmFloats bits ls = .ok vs) :
    countFits vs.length = true := by
  unfold asmFloats at h
  split at h
  · cases h
  · split at h
    · rename_i hfit
      cases h
      obtain ⟨hcount, -⟩ := (Bool.and_eq_true _ _).mp hfit
      rwa [List.length_map]
    · cases h

/-! ### What an accepted line is -/

theorem wellFormed_of_asmLoad {T : ScalarType} {ls : List Literal} {i : Instr} (h : asmLoad T ls = .ok i) :
    i.wellFormed = true := by
  cases T with
  | u16 | i16 | u32 | i32 | u64 | i64 =>
    obtain ⟨vs, hvs, rfl⟩ := exists_of_map_eq_ok h
    exact intOperandsFit_of_asmInts hvs
  | f32 | f64 =>
    obtain ⟨vs, hvs, rfl⟩ := exists_of_map_eq_ok h
    exact countFits_of_asmFloats hvs
  | words =>
    obtain ⟨vs, hvs, rfl⟩ := exists_of_map_eq_ok h
    exact countFits_of_asmWords hvs

theorem wellFormed_of_asmLoadLine {suffix operand : List Char} {i : Instr} (h : asmLoadLine suffix operand = .ok i) :
    i.wellFormed = true := by
  unfold asmLoadLine at h
  split at h
  · cases h
  · split at h
    · cases h
    · exact wellFormed_of_asmLoad h

/-- A line without an operand is the command of its mnemonic, so well formed if that command is. -/
theorem wellFormed_of_asmPlain {i j : Instr} {operand : List Char} (hi : i.wellFormed = true)
    (h : asmPlain i operand = .ok j) : j.wellFormed = true := by
  unfold asmPlain at h
  split at h
  · cases h
    exact hi
  · cases h

theorem wellFormed_asmScalarView (T : ScalarType) : (asmScalarView T).wellFormed = true := by cases T <;> rfl

theorem wellFormed_of_asmViewLine {suffix operand : List Char} {i : Instr} (h : asmViewLine suffix operand = .ok i) :
    i.wellFormed = true := by
  unfold asmViewLine at h
  split at h
  · exact wellFormed_of_asmPlain rfl h
  · split at h
    · exact wellFormed_of_asmPlain rfl h
    · split at h
      · split at h
        · cases h
        · cases h
          rfl
      · split at h
        · cases h
        · exact wellFormed_of_asmPlain (wellFormed_asmScalarView _) h

theorem wellFormed_of_asmCommand {mnemonic operand : List Char} {i : Instr} (h : asmCommand mnemonic operand = .ok i) :
    i.wellFormed = true := by
  unfold asmCommand at h
  split at h
  · exact wellFormed_of_asmLoadLine h
  · exact wellFormed_of_asmViewLine h
  · split at h
    · exact wellFormed_of_asmPlain rfl h
    · split at h
      · exact wellFormed_of_asmPlain rfl h
      · cases h

/-- A line read as a command has a mnemonic and an operand that make it. -/
theorem asmCommand_of_assembleLine {line : List Char} {i : Instr} (h : assembleLine line = .ok (some i)) :
    ∃ mnemonic operand, asmCommand mnemonic operand = .ok i := by
  dsimp only [assembleLine] at h
  split at h
  · cases h
  · split at h
    · rename_i hcommand
      cases h
      exact ⟨_, _, hcommand⟩
    · cases h

/-- Settles O46: the assembler checks the range and the count of every load's operands, and a well-formed command decodes from
its own words. -/
theorem assembledLinesAreCarriedCommands : Obligations.AssembledLinesAreCarriedCommands := by
  intro line i h
  obtain ⟨mnemonic, operand, hcommand⟩ := asmCommand_of_assembleLine h
  have hwf := wellFormed_of_asmCommand hcommand
  exact ⟨hwf, decodeOfEncodeIsTheCommand i hwf⟩

end Sys2Proof.Machine
end

section
/-! PROOFS. How the assembler takes a line apart: comment, blanks, mnemonic, operand, elements (30_encoding.md R55, log entry 18). -/

namespace Sys2Proof.Machine

/-! ### Plain characters -/

/-- A character that a mnemonic or a literal is made of: no blank and no punctuation of a line. -/
def isPlain (c : Char) : Bool := !isBlank c && c != ',' && c != ';' && c != '['

/-- All characters are plain. -/
abbrev Plain (cs : List Char) : Prop := ∀ c ∈ cs, isPlain c = true

theorem not_isBlank_of_isPlain {c : Char} (h : isPlain c = true) : isBlank c = false := by
  simp only [isPlain, Bool.and_eq_true] at h
  obtain ⟨⟨⟨hblank, -⟩, -⟩, -⟩ := h
  simpa using hblank

theorem ne_of_isPlain {c : Char} (h : isPlain c = true) : c ≠ ',' ∧ c ≠ ';' ∧ c ≠ '[' := by
  simp only [isPlain, Bool.and_eq_true, bne_iff_ne] at h
  obtain ⟨⟨⟨-, hcomma⟩, hsemicolon⟩, hbracket⟩ := h
  exact ⟨hcomma, hsemicolon, hbracket⟩

/-! ### Blanks and comments -/

theorem dropWhile_of_head? {p : Char → Bool} {cs : List Char} (h : ∀ c ∈ cs.head?, p c = false) : cs.dropWhile p = cs := by
  cases cs with
  | nil => rfl
  | cons c cs => exact List.dropWhile_cons_of_neg (by simp [h c rfl])

/-- Characters with no blank at either end are left as they are. -/
theorem trimBlanks_eq_self {cs : List Char} (hhead : ∀ c ∈ cs.head?, isBlank c = false)
    (hlast : ∀ c ∈ cs.getLast?, isBlank c = false) : trimBlanks cs = cs := by
  rw [trimBlanks, dropWhile_of_head? hhead, dropWhile_of_head? (by rwa [List.head?_reverse]), List.reverse_reverse]

theorem trimBlanks_of_plain {cs : List Char} (h : Plain cs) : trimBlanks cs = cs :=
  trimBlanks_eq_self (fun c hc => not_isBlank_of_isPlain (h c (List.mem_of_head? hc)))
    (fun c hc => not_isBlank_of_isPlain (h c (List.mem_of_getLast? hc)))

theorem trimBlanks_blank_cons {b : Char} (hb : isBlank b = true) (cs : List Char) : trimBlanks (b :: cs) = trimBlanks cs := by
  rw [trimBlanks, List.dropWhile_cons_of_pos hb, trimBlanks]

theorem trimBlanks_cons_ne_nil {c : Char} (hc : isBlank c = false) (cs : List Char) : trimBlanks (c :: cs) ≠ [] := by
  rw [trimBlanks, List.dropWhile_cons_of_neg (by simp [hc])]
  simp [hc]

theorem dropComment_eq_self {cs : List Char} (h : ∀ c ∈ cs, c ≠ ';') : dropComment cs = cs := by
  rw [dropComment, List.takeWhile_eq_self_iff]
  intro c hc
  simpa using h c hc

/-- A comment is dropped whatever the line before it holds, a comment of its own included. -/
theorem dropComment_append_comment (line comment : List Char) : dropComment (line ++ ';' :: comment) = dropComment line := by
  induction line with
  | nil => rfl
  | cons c cs ih =>
    simp only [dropComment, List.cons_append, List.takeWhile_cons] at ih ⊢
    rw [ih]

/-! ### Mnemonic and operand -/

/-- A line of a mnemonic, one blank and an operand is the command of the two. -/
theorem assembleLine_mnemonic_operand {mnemonic operand : List Char} (hm : Plain mnemonic) (hm0 : mnemonic ≠ [])
    (ho0 : operand ≠ []) (hhead : ∀ c ∈ operand.head?, isBlank c = false) (hlast : ∀ c ∈ operand.getLast?, isBlank c = false)
    (hcomment : ∀ c ∈ operand, c ≠ ';') :
    assembleLine (mnemonic ++ ' ' :: operand) = (asmCommand mnemonic operand).map some := by
  have hdrop : dropComment (mnemonic ++ ' ' :: operand) = mnemonic ++ ' ' :: operand := by
    refine dropComment_eq_self fun c hc => ?_
    obtain hc | hc | hc : c ∈ mnemonic ∨ c = ' ' ∨ c ∈ operand := by simpa using hc
    · exact (ne_of_isPlain (hm c hc)).2.1
    · simp [hc]
    · exact hcomment c hc
  have htrim : trimBlanks (mnemonic ++ ' ' :: operand) = mnemonic ++ ' ' :: operand := by
    refine trimBlanks_eq_self (fun c hc => ?_) (fun c hc => hlast c ?_)
    · rw [List.head?_append_of_ne_nil _ hm0] at hc
      exact not_isBlank_of_isPlain (hm c (List.mem_of_head? hc))
    · rwa [List.append_cons, List.getLast?_append_of_ne_nil _ ho0] at hc
  have hplain : ∀ c ∈ mnemonic, (!isBlank c) = true := fun c hc => by simp [not_isBlank_of_isPlain (hm c hc)]
  have htake : (mnemonic ++ ' ' :: operand).takeWhile (fun c => !isBlank c) = mnemonic := by
    rw [List.takeWhile_append_of_pos hplain]
    simp [isBlank]
  have hrest : trimBlanks ((mnemonic ++ ' ' :: operand).dropWhile fun c => !isBlank c) = operand := by
    rw [List.dropWhile_append_of_pos hplain, List.dropWhile_cons_of_neg (by simp [isBlank]), trimBlanks_blank_cons rfl,
      trimBlanks_eq_self hhead hlast]
  dsimp only [assembleLine]
  rw [hdrop, htrim, htake, hrest, if_neg (by simp)]
  cases asmCommand mnemonic operand with
  | ok i => rfl
  | error e => rfl

/-! ### The elements of a sequence -/

theorem splitCommas_ne_nil (cs : List Char) : splitCommas cs ≠ [] := by
  unfold splitCommas
  split
  · simp
  · split
    · simp
    · split <;> simp

/-- A character other than a comma belongs to the first piece. -/
theorem splitCommas_cons {c : Char} (hc : c ≠ ',') {cs piece : List Char} {pieces : List (List Char)}
    (h : splitCommas cs = piece :: pieces) : splitCommas (c :: cs) = (c :: piece) :: pieces := by
  simp [splitCommas, hc, h]

theorem splitCommas_of_plain {cs : List Char} (h : Plain cs) : splitCommas cs = [cs] := by
  induction cs with
  | nil => rfl
  | cons c cs ih => exact splitCommas_cons (ne_of_isPlain (h c (by simp))).1 (ih fun x hx => h x (by simp [hx]))

theorem splitCommas_plain_append_comma {cs : List Char} (h : Plain cs) (rest : List Char) :
    splitCommas (cs ++ ',' :: rest) = cs :: splitCommas rest := by
  induction cs with
  | nil => rfl
  | cons c cs ih => exact splitCommas_cons (ne_of_isPlain (h c (by simp))).1 (ih fun x hx => h x (by simp [hx]))

/-- A blank in front of a sequence changes no literal. -/
theorem readLiterals_splitCommas_blank_cons (cs : List Char) :
    readLiterals (splitCommas (' ' :: cs)) = readLiterals (splitCommas cs) := by
  obtain ⟨piece, pieces, h⟩ := List.exists_cons_of_ne_nil (splitCommas_ne_nil cs)
  rw [splitCommas_cons (by decide) h, h, readLiterals, readLiterals, trimBlanks_blank_cons rfl]

theorem readOperand_bracketed (inner : List Char) : readOperand ('[' :: (inner ++ [']'])) = readSequence inner := by
  simp [readOperand]

end Sys2Proof.Machine
end

section
/-! PROOFS. The operands and lines that R55 writes, read back (30_encoding.md R55, R56). -/

namespace Sys2Proof.Machine

open Sys2Proof.Statements

/-! ### Digits -/

/-- The character of a digit value. -/
def digitChar (d : Nat) : Char := Char.ofNat (digitCodes.getD d 0)

theorem isPlain_digitChar : ∀ d < 16, isPlain (digitChar d) = true := by decide

theorem digitValue_ten : ∀ d < 10, digitValue 10 (digitChar d) = some d := by decide

theorem digitValue_sixteen : ∀ d < 16, digitValue 16 (digitChar d) = some d := by decide

/-- No digit starts the forms `0x` and `-`. -/
theorem digitChar_ne_marks : ∀ d < 10, digitChar d ≠ 'x' ∧ digitChar d ≠ '-' := by decide

/-- Digits of a base spell the number that R55 gives them. -/
theorem digitsFrom_map_digitChar {base : Nat} (hvalue : ∀ d < base, digitValue base (digitChar d) = some d) {ds : List Nat}
    (hds : ∀ d ∈ ds, d < base) (acc : Nat) :
    digitsFrom base acc (ds.map digitChar) = some (ds.foldl (fun acc d => base * acc + d) acc) := by
  induction ds generalizing acc with
  | nil => rfl
  | cons d ds ih =>
    simp only [List.map_cons, digitsFrom, hvalue d (hds d (by simp)), List.foldl_cons]
    exact ih (fun x hx => hds x (by simp [hx])) _

theorem readDigits_map_digitChar {base : Nat} (hvalue : ∀ d < base, digitValue base (digitChar d) = some d) {ds : List Nat}
    (hds0 : ds ≠ []) (hds : ∀ d ∈ ds, d < base) :
    readDigits base (ds.map digitChar) = some (ds.foldl (fun acc d => base * acc + d) 0) := by
  rw [readDigits, if_neg (by simpa using hds0), digitsFrom_map_digitChar hvalue hds]

/-- Digits alone are a decimal literal. -/
theorem readLiteral_of_digits {cs : List Char} (h : ∀ c ∈ cs, c ≠ 'x' ∧ c ≠ '-') :
    readLiteral cs = (readDigits 10 cs).map fun n : Nat => .decimal n := by
  unfold readLiteral
  split
  · exact absurd rfl (h 'x' (by simp)).1
  · exact absurd rfl (h '-' (by simp)).2
  · rfl

/-! ### Operands -/

/-- The literal that a written operand is read as. -/
def operandLiteral : WrittenOperand → Literal
  | .decimal negative ds => .decimal (WrittenOperand.decimal negative ds).number
  | .hex ds => .hex (ds.foldl (fun acc d => 16 * acc + d) 0)

@[simp] theorem operandLiteral_value (o : WrittenOperand) : (operandLiteral o).value = o.number := by
  cases o <;> rfl

theorem digits_of_valid_decimal {negative : Bool} {ds : List Nat} (h : (WrittenOperand.decimal negative ds).valid = true) :
    ds ≠ [] ∧ ∀ d ∈ ds, d < 10 := by
  simpa [WrittenOperand.valid] using h

theorem digits_of_valid_hex {ds : List Nat} (h : (WrittenOperand.hex ds).valid = true) : ds ≠ [] ∧ ∀ d ∈ ds, d < 16 := by
  simpa [WrittenOperand.valid] using h

theorem chars_decimal (negative : Bool) (ds : List Nat) :
    (WrittenOperand.decimal negative ds).chars = (if negative then ['-'] else []) ++ ds.map digitChar := rfl

theorem chars_hex (ds : List Nat) : (WrittenOperand.hex ds).chars = '0' :: 'x' :: ds.map digitChar := rfl

theorem plain_map_digitChar {ds : List Nat} (h : ∀ d ∈ ds, d < 16) : Plain (ds.map digitChar) := by
  intro c hc
  obtain ⟨d, hd, rfl⟩ := List.mem_map.mp hc
  exact isPlain_digitChar d (h d hd)

theorem plain_cons {c : Char} {cs : List Char} (hc : isPlain c = true) (hcs : Plain cs) : Plain (c :: cs) :=
  List.forall_mem_cons.mpr ⟨hc, hcs⟩

theorem plain_chars {o : WrittenOperand} (h : o.valid = true) : Plain o.chars := by
  cases o with
  | decimal negative ds =>
    obtain ⟨-, hds⟩ := digits_of_valid_decimal h
    have hplain : Plain (ds.map digitChar) := plain_map_digitChar fun d hd => (hds d hd).trans (by decide)
    cases negative with
    | false => exact hplain
    | true => exact plain_cons (by decide) hplain
  | hex ds =>
    obtain ⟨-, hds⟩ := digits_of_valid_hex h
    exact plain_cons (by decide) (plain_cons (by decide) (plain_map_digitChar hds))

theorem chars_ne_nil {o : WrittenOperand} (h : o.valid = true) : o.chars ≠ [] := by
  cases o with
  | decimal negative ds => simp [chars_decimal, (digits_of_valid_decimal h).1]
  | hex ds => simp [chars_hex]

theorem readLiteral_chars {o : WrittenOperand} (h : o.valid = true) : readLiteral o.chars = some (operandLiteral o) := by
  cases o with
  | decimal negative ds =>
    obtain ⟨hds0, hds⟩ := digits_of_valid_decimal h
    have hread := readDigits_map_digitChar digitValue_ten hds0 hds
    cases negative with
    | true => exact congrArg (Option.map fun n : Nat => Literal.decimal (-(n : Int))) hread
    | false =>
      have hmarks : ∀ c ∈ ds.map digitChar, c ≠ 'x' ∧ c ≠ '-' := by
        intro c hc
        obtain ⟨d, hd, rfl⟩ := List.mem_map.mp hc
        exact digitChar_ne_marks d (hds d hd)
      exact (readLiteral_of_digits hmarks).trans (congrArg _ hread)
  | hex ds =>
    obtain ⟨hds0, hds⟩ := digits_of_valid_hex h
    exact congrArg (Option.map Literal.hex) (readDigits_map_digitChar digitValue_sixteen hds0 hds)

/-- An operand alone is the single value of R56 (a). -/
theorem readOperand_chars {o : WrittenOperand} (h : o.valid = true) : readOperand o.chars = some (.scalar (operandLiteral o)) := by
  unfold readOperand
  split
  · rename_i rest hchars
    have hplain := plain_chars h
    rw [hchars] at hplain
    exact absurd rfl (ne_of_isPlain (hplain '[' (by simp))).2.2
  · rw [readLiteral_chars h]
    rfl

/-! ### Sequences -/

/-- What stands inside the brackets of a load line. -/
def sequenceChars (os : List WrittenOperand) : List Char := List.intercalate ", ".toList (os.map WrittenOperand.chars)

theorem sequenceChars_singleton (o : WrittenOperand) : sequenceChars [o] = o.chars := List.intercalate_singleton

theorem sequenceChars_cons_cons (o o' : WrittenOperand) (os : List WrittenOperand) :
    sequenceChars (o :: o' :: os) = o.chars ++ ',' :: ' ' :: sequenceChars (o' :: os) := by
  simp [sequenceChars, List.intercalate_cons_cons]

theorem sequenceChars_ne_semicolon {os : List WrittenOperand} (h : ∀ o ∈ os, o.valid = true) :
    ∀ c ∈ sequenceChars os, c ≠ ';' := by
  induction os with
  | nil => simp [sequenceChars, List.intercalate]
  | cons o os ih =>
    have ho : ∀ c ∈ o.chars, c ≠ ';' := fun c hc => (ne_of_isPlain (plain_chars (h o (by simp)) c hc)).2.1
    cases os with
    | nil => rwa [sequenceChars_singleton]
    | cons o' os =>
      have ih := ih fun x hx => h x (by simp [hx])
      intro c hc
      rw [sequenceChars_cons_cons] at hc
      obtain hc | rfl | rfl | hc : c ∈ o.chars ∨ c = ',' ∨ c = ' ' ∨ c ∈ sequenceChars (o' :: os) := by simpa using hc
      · exact ho c hc
      · decide
      · decide
      · exact ih c hc

theorem readLiteral_trimBlanks_chars {o : WrittenOperand} (h : o.valid = true) :
    readLiteral (trimBlanks o.chars) = some (operandLiteral o) := by
  rw [trimBlanks_of_plain (plain_chars h), readLiteral_chars h]

theorem readLiterals_sequenceChars (o : WrittenOperand) {os : List WrittenOperand} (h : ∀ x ∈ o :: os, x.valid = true) :
    readLiterals (splitCommas (sequenceChars (o :: os))) = some ((o :: os).map operandLiteral) := by
  induction os generalizing o with
  | nil =>
    have ho := h o (by simp)
    simp [sequenceChars_singleton, splitCommas_of_plain (plain_chars ho), readLiterals, readLiteral_trimBlanks_chars ho]
  | cons o' os ih =>
    have ho := h o (by simp)
    rw [sequenceChars_cons_cons, splitCommas_plain_append_comma (plain_chars ho), readLiterals, readLiteral_trimBlanks_chars ho,
      readLiterals_splitCommas_blank_cons, ih o' fun x hx => h x (by simp [hx])]
    rfl

theorem trimBlanks_sequenceChars_ne_nil {o : WrittenOperand} (ho : o.valid = true) (os : List WrittenOperand) :
    trimBlanks (sequenceChars (o :: os)) ≠ [] := by
  obtain ⟨c, cs, hchars⟩ := List.exists_cons_of_ne_nil (chars_ne_nil ho)
  have hc : isBlank c = false := not_isBlank_of_isPlain (plain_chars ho c (by simp [hchars]))
  cases os with
  | nil =>
    rw [sequenceChars_singleton, hchars]
    exact trimBlanks_cons_ne_nil hc _
  | cons o' os =>
    rw [sequenceChars_cons_cons, hchars]
    exact trimBlanks_cons_ne_nil hc _

/-- A bracketed sequence is read as its operands in order. -/
theorem readSequence_sequenceChars {os : List WrittenOperand} (h : ∀ o ∈ os, o.valid = true) :
    readSequence (sequenceChars os) = some (.sequence (os.map operandLiteral)) := by
  cases os with
  | nil => rfl
  | cons o os =>
    rw [readSequence, if_neg (trimBlanks_sequenceChars_ne_nil (h o (by simp)) os), readLiterals_sequenceChars o h]
    rfl

/-! ### Load lines -/

/-- The mnemonic of a load (30_encoding.md R55). -/
def loadMnemonic : ScalarType → String
  | .u16 => "LD.U16"
  | .i16 => "LD.I16"
  | .u32 => "LD.U32"
  | .i32 => "LD.I32"
  | .u64 => "LD.U64"
  | .i64 => "LD.I64"
  | .f32 => "LD.F32"
  | .f64 => "LD.F64"
  | .words => "LD.WORDS"

theorem plain_loadMnemonic (T : ScalarType) : Plain (loadMnemonic T).toList := List.all_eq_true.mp (by cases T <;> rfl)

theorem loadMnemonic_ne_nil (T : ScalarType) : (loadMnemonic T).toList ≠ [] := by cases T <;> decide

/-- A load's mnemonic on an operand that is read makes the load of its type. -/
theorem asmCommand_loadMnemonic (T : ScalarType) {operand : List Char} {o : ScalarOrSequence Literal}
    (h : readOperand operand = some o) : asmCommand (loadMnemonic T).toList operand = asmLoad T o.toSequence := by
  have hline (suffix : List Char) (hT : typeSuffix suffix = some T) : asmLoadLine suffix operand = asmLoad T o.toSequence := by
    simp only [asmLoadLine, hT, h]
  cases T with
  | u16 => exact hline "U16".toList rfl
  | i16 => exact hline "I16".toList rfl
  | u32 => exact hline "U32".toList rfl
  | i32 => exact hline "I32".toList rfl
  | u64 => exact hline "U64".toList rfl
  | i64 => exact hline "I64".toList rfl
  | f32 => exact hline "F32".toList rfl
  | f64 => exact hline "F64".toList rfl
  | words => exact hline "WORDS".toList rfl

theorem assembleLine_loadLine (T : ScalarType) {os : List WrittenOperand} (h : ∀ o ∈ os, o.valid = true) :
    assembleLine (loadLine (loadMnemonic T) os) = (asmLoad T (os.map operandLiteral)).map some := by
  have hline : loadLine (loadMnemonic T) os = (loadMnemonic T).toList ++ ' ' :: '[' :: (sequenceChars os ++ [']']) := by
    simp [loadLine, sequenceChars]
  have hread : readOperand ('[' :: (sequenceChars os ++ [']'])) = some (.sequence (os.map operandLiteral)) := by
    rw [readOperand_bracketed, readSequence_sequenceChars h]
  rw [hline, assembleLine_mnemonic_operand (plain_loadMnemonic T) (loadMnemonic_ne_nil T) (by simp)
    (by simp [isBlank]) (by simp [List.getLast?_cons, isBlank]) ?_, asmCommand_loadMnemonic T hread]
  · rfl
  · intro c hc
    obtain rfl | hc | rfl : c = '[' ∨ c ∈ sequenceChars os ∨ c = ']' := by simpa using hc
    · decide
    · exact sequenceChars_ne_semicolon h c hc
    · decide

theorem assembleLine_scalarLine (T : ScalarType) {o : WrittenOperand} (h : o.valid = true) :
    assembleLine (scalarLine (loadMnemonic T) o) = (asmLoad T [operandLiteral o]).map some := by
  have hline : scalarLine (loadMnemonic T) o = (loadMnemonic T).toList ++ ' ' :: o.chars := by simp [scalarLine]
  have hplain := plain_chars h
  rw [hline, assembleLine_mnemonic_operand (plain_loadMnemonic T) (loadMnemonic_ne_nil T) (chars_ne_nil h)
    (fun c hc => not_isBlank_of_isPlain (hplain c (List.mem_of_head? hc)))
    (fun c hc => not_isBlank_of_isPlain (hplain c (List.mem_of_getLast? hc)))
    (fun c hc => (ne_of_isPlain (hplain c hc)).2.1), asmCommand_loadMnemonic T (readOperand_chars h)]
  rfl

/-- The nine mnemonics of R56 (a) are the loads of the nine types. -/
theorem exists_eq_loadMnemonic :
    ∀ m ∈ ["LD.U16", "LD.I16", "LD.U32", "LD.I32", "LD.U64", "LD.I64", "LD.F32", "LD.F64", "LD.WORDS"],
      ∃ T, m = loadMnemonic T := by
  simp only [List.forall_mem_cons]
  exact ⟨⟨.u16, rfl⟩, ⟨.i16, rfl⟩, ⟨.u32, rfl⟩, ⟨.i32, rfl⟩, ⟨.u64, rfl⟩, ⟨.i64, rfl⟩, ⟨.f32, rfl⟩, ⟨.f64, rfl⟩, ⟨.words, rfl⟩,
    by simp⟩

/-- Settles O50: both lines are the load on the list of the one literal. -/
theorem scalarFormIsTheOneElementSequence : Obligations.ScalarFormIsTheOneElementSequence := by
  intro m hm o ho
  obtain ⟨T, rfl⟩ := exists_eq_loadMnemonic m hm
  rw [assembleLine_scalarLine T ho, assembleLine_loadLine T (by simpa using ho)]
  rfl

/-! ### The operands of each load -/

theorem map_value_operandLiteral (os : List WrittenOperand) :
    (os.map operandLiteral).map Literal.value = os.map WrittenOperand.number := by simp

/-- A list that fits the count word, each element of which passes a check, passes the assembler's check. -/
theorem countFits_and_all {α : Type} {p : α → Bool} {vs : List α} (hn : vs.length ≤ 65535) (h : ∀ v ∈ vs, p v = true) :
    (countFits vs.length && vs.all p) = true :=
  (Bool.and_eq_true _ _).mpr ⟨decide_eq_true hn, List.all_eq_true.mpr h⟩

theorem asmInts_operandLiterals {os : List WrittenOperand} (hn : os.length ≤ 65535)
    (h : ∀ o ∈ os, -(2 ^ 79) ≤ o.number ∧ o.number ≤ 2 ^ 79 - 1) :
    asmInts (os.map operandLiteral) = .ok (os.map WrittenOperand.number) := by
  have hfit : intOperandsFit (os.map WrittenOperand.number) = true := by
    refine countFits_and_all (by simpa using hn) fun v hv => ?_
    obtain ⟨o, ho, rfl⟩ := List.mem_map.mp hv
    obtain ⟨hlo, hhi⟩ := h o ho
    exact decide_eq_true ⟨hlo, by omega⟩
  dsimp only [asmInts]
  rw [map_value_operandLiteral, if_pos hfit]

theorem asmWords_operandLiterals {os : List WrittenOperand} (hn : os.length ≤ 65535)
    (h : ∀ o ∈ os, 0 ≤ o.number ∧ o.number ≤ 65535) :
    asmWords (os.map operandLiteral) = .ok (os.map fun o => BitVec.ofInt 16 o.number) := by
  dsimp only [asmWords]
  rw [map_value_operandLiteral, if_pos (countFits_and_all (by simpa using hn) ?_), List.map_map]
  · rfl
  · intro v hv
    obtain ⟨o, ho, rfl⟩ := List.mem_map.mp hv
    exact decide_eq_true (h o ho)

/-- The pattern that a hexadecimal operand is written as is its number. -/
theorem asmPattern_operandLiteral {o : WrittenOperand} (h : o.isHex = true) :
    asmPattern (operandLiteral o) = some o.number.toNat := by
  cases o with
  | decimal negative ds => cases h
  | hex ds => rfl

theorem asmPatterns_operandLiterals {os : List WrittenOperand} (h : ∀ o ∈ os, o.isHex = true) :
    asmPatterns (os.map operandLiteral) = some (os.map fun o => o.number.toNat) := by
  induction os with
  | nil => rfl
  | cons o os ih =>
    rw [List.map_cons, asmPatterns, asmPattern_operandLiteral (h o (by simp)), ih fun x hx => h x (by simp [hx])]
    rfl

theorem asmFloats_operandLiterals (bits : Nat) {os : List WrittenOperand} (hn : os.length ≤ 65535)
    (hhex : ∀ o ∈ os, o.isHex = true) (h : ∀ o ∈ os, 0 ≤ o.number ∧ o.number ≤ 2 ^ bits - 1) :
    asmFloats bits (os.map operandLiteral) = .ok (os.map fun o => BitVec.ofInt bits o.number) := by
  rw [asmFloats, asmPatterns_operandLiterals hhex]
  dsimp only
  rw [if_pos (countFits_and_all (by simpa using hn) ?_), List.map_map]
  · refine congrArg Except.ok (List.map_congr_left fun o ho => ?_)
    rw [Function.comp_apply, ← BitVec.ofInt_natCast, Int.toNat_of_nonneg (h o ho).1]
  · intro v hv
    obtain ⟨o, ho, rfl⟩ := List.mem_map.mp hv
    obtain ⟨hlo, hhi⟩ := h o ho
    refine decide_eq_true ?_
    zify
    rw [Int.toNat_of_nonneg hlo]
    omega

/-! ### Lines and programs -/

/-- A load line stands for the load that the assembler makes of the operands' literals. -/
theorem loadLineStandsFor {α : Type} (T : ScalarType) {mk : List α → Instr} {read : Int → α} {lo hi : Int}
    {form : WrittenOperand → Bool}
    (h : ∀ os : List WrittenOperand, os.length ≤ 65535 → (∀ o ∈ os, form o = true) → (∀ o ∈ os, lo ≤ o.number ∧ o.number ≤ hi) →
      asmLoad T (os.map operandLiteral) = .ok (mk (os.map fun o => read o.number))) :
    LoadLineStandsFor (loadMnemonic T) mk read lo hi form := by
  intro os hos hn
  rw [assembleLine_loadLine T fun o ho => (hos o ho).1, h os hn (fun o ho => (hos o ho).2.1) fun o ho => (hos o ho).2.2]
  rfl

/-- The line of an integer load stands for it. -/
theorem intLoadLineStandsFor (T : ScalarType) {mk : List Int → Instr} (hmk : ∀ ls, asmLoad T ls = (asmInts ls).map mk) :
    LoadLineStandsFor (loadMnemonic T) mk id (-(2 ^ 79)) (2 ^ 79 - 1) (fun _ => true) := by
  refine loadLineStandsFor T fun os hn _ h => ?_
  rw [hmk, asmInts_operandLiterals hn h]
  rfl

/-- The line of a float load stands for it. -/
theorem floatLoadLineStandsFor (T : ScalarType) {bits : Nat} {mk : List (BitVec bits) → Instr}
    (hmk : ∀ ls, asmLoad T ls = (asmFloats bits ls).map mk) :
    LoadLineStandsFor (loadMnemonic T) mk (BitVec.ofInt bits) 0 (2 ^ bits - 1) WrittenOperand.isHex := by
  refine loadLineStandsFor T fun os hn hhex h => ?_
  rw [hmk, asmFloats_operandLiterals bits hn hhex h]
  rfl

theorem wordLoadLineStandsFor :
    LoadLineStandsFor (loadMnemonic .words) .ldWords (BitVec.ofInt 16) 0 65535 (fun _ => true) := by
  refine loadLineStandsFor .words fun os hn _ h => ?_
  rw [asmLoad, asmWords_operandLiterals hn h]
  rfl

theorem assembleLine_append_comment (line comment : List Char) : assembleLine (line ++ ';' :: comment) = assembleLine line := by
  rw [assembleLine, dropComment_append_comment, assembleLine]

theorem assemble_program (program : List (List Char × Instr)) (h : ∀ p ∈ program, assembleLine p.1 = .ok (some p.2)) :
    assemble (program.map Prod.fst) = .ok (program.map fun p => encode p.2) := by
  induction program with
  | nil => rfl
  | cons p program ih =>
    rw [List.map_cons, assemble, h p (by simp), ih fun q hq => h q (by simp [hq])]
    rfl

/-- Settles O49: a load line is taken apart into the literals of its operands, the other lines of R55's table are evaluated, and a
program goes line by line. -/
theorem assemblerLinesStandForTheirCommands : Obligations.AssemblerLinesStandForTheirCommands :=
  ⟨intLoadLineStandsFor .u16 fun _ => rfl, intLoadLineStandsFor .i16 fun _ => rfl, intLoadLineStandsFor .u32 fun _ => rfl,
    intLoadLineStandsFor .i32 fun _ => rfl, intLoadLineStandsFor .u64 fun _ => rfl, intLoadLineStandsFor .i64 fun _ => rfl,
    floatLoadLineStandsFor .f32 fun _ => rfl, floatLoadLineStandsFor .f64 fun _ => rfl, wordLoadLineStandsFor,
    by decide, assembleLine_append_comment, assemble_program⟩

end Sys2Proof.Machine
end

section
/-! PROOFS. Packing, byte by byte, and unpacking what was packed (20_memory.md R20 to R24, 40_load_pack.md R61). -/

namespace Sys2Proof.Machine

open Sys2Proof.Statements

/-! ### The digits of a two's-complement pattern -/

/-- The pattern differs from its value by a multiple of `2^n`, which stands above every field inside the pattern. -/
theorem exists_eq_twosComplement_add {n s len : Nat} (h : s + len ≤ n) (v : Int) :
    ∃ q, v = twosComplement n v + 2 ^ s * (2 ^ len * q) := by
  have hpow : (2 : Int) ^ s * (2 ^ len * 2 ^ (n - s - len)) = 2 ^ n := by
    rw [← pow_add, ← pow_add]
    congr 1
    omega
  refine ⟨2 ^ (n - s - len) * (v / 2 ^ n), ?_⟩
  rw [← mul_assoc (2 ^ len), ← mul_assoc (2 ^ s), hpow, twosComplement,
    Int.toNat_of_nonneg (Int.emod_nonneg v (by positivity)), Int.emod_add_mul_ediv]

/-- A field inside the pattern is the same field of the value. -/
theorem ofNat_twosComplement_div {n s len : Nat} (h : s + len ≤ n) (v : Int) :
    BitVec.ofNat len (twosComplement n v / 2 ^ s) = BitVec.ofInt len (v / 2 ^ s) := by
  obtain ⟨q, hq⟩ := exists_eq_twosComplement_add h v
  generalize twosComplement n v = u at hq ⊢
  have hdiv : v / 2 ^ s = (u / 2 ^ s : Nat) + 2 ^ len * q := by
    rw [hq, Int.add_mul_ediv_left _ _ (by positivity)]
    norm_cast
  apply BitVec.eq_of_toNat_eq
  rw [hdiv, ← BitVec.ofInt_natCast, BitVec.toNat_ofInt, BitVec.toNat_ofInt, Nat.cast_pow, Nat.cast_ofNat,
    Int.add_mul_emod_self_left]

theorem extractLsb'_ofInt {n s len : Nat} (h : s + len ≤ n) (v : Int) :
    (BitVec.ofInt n v).extractLsb' s len = BitVec.ofInt len (v / 2 ^ s) := by
  rw [← ofNat_twosComplement_div h, BitVec.extractLsb', BitVec.toNat_ofInt, Nat.shiftRight_eq_div_pow, twosComplement,
    Nat.cast_pow, Nat.cast_ofNat]

/-! ### The bytes of a packing -/

theorem beBytes_encScalar_getElem? {T : ScalarType} {j : Nat} (hj : j < scalarWidth T) (v : Int) :
    (beBytes (scalarWidth T) (encScalar T v))[j]? = some (packedByte (scalarWidth T) j v) := by
  have hbits : 8 * scalarWidth T ≤ scalarBits T := Nat.mul_div_le _ _
  rw [beBytes_getElem? _ _ _ hj, encScalar, ofNat_twosComplement_div (by omega), packedByte]

/-- Where all pieces have one length, piece `k` starts at `k` times that length. -/
theorem flatMap_getElem?_of_length_eq {α β : Type} {f : α → List β} {w : Nat} (hf : ∀ a, (f a).length = w) {l : List α}
    {k : Nat} {a : α} (hk : l[k]? = some a) {j : Nat} (hj : j < w) : (l.flatMap f)[k * w + j]? = (f a)[j]? := by
  induction l generalizing k with
  | nil => simp at hk
  | cons b l ih =>
    rw [List.flatMap_cons]
    cases k with
    | zero =>
      obtain rfl : b = a := by simpa using hk
      rw [Nat.zero_mul, Nat.zero_add, List.getElem?_append_left (by rw [hf]; exact hj)]
    | succ k =>
      have hoff : (k + 1) * w + j = w + (k * w + j) := by ring
      rw [hoff, List.getElem?_append_right (by rw [hf]; omega), hf, Nat.add_sub_cancel_left, ih (by simpa using hk)]

theorem pack_getElem? {T : ScalarType} {vs : List Int} {k : Nat} {v : Int} (hk : vs[k]? = some v) {j : Nat}
    (hj : j < scalarWidth T) : (pack T vs)[k * scalarWidth T + j]? = some (packedByte (scalarWidth T) j v) := by
  rw [pack, flatMap_getElem?_of_length_eq (fun _ => beBytes_length _ _) hk hj, beBytes_encScalar_getElem? hj]

/-! ### Unpacking what was packed -/

theorem chunks_append_of_length_eq {w : Nat} (hw : 0 < w) {bs : List Byte} (hbs : bs.length = w) (m : Memory) :
    chunks w (bs ++ m) = bs :: chunks w m := by
  have hcount : (bs ++ m).length / w = m.length / w + 1 := by
    rw [List.length_append, hbs, Nat.add_div_left _ hw]
  have hfirst : memRead (0 * w) w (bs ++ m) = bs := by
    rw [memRead, Nat.zero_mul, List.drop_zero, List.take_left' hbs]
  have hlater : ∀ k, memRead ((k + 1) * w) w (bs ++ m) = memRead (k * w) w m := by
    intro k
    rw [memRead, memRead, Nat.succ_mul, Nat.add_comm, ← List.drop_drop, List.drop_left' hbs]
  rw [chunks, hcount, List.range_succ_eq_map, List.map_cons, List.map_map, hfirst, chunks]
  exact congrArg (bs :: ·) (List.map_congr_left fun k _ => hlater k)

theorem view_pack (T : ScalarType) (vs : List Int) (h : ∀ v ∈ vs, inRange T v = true) : view T (pack T vs) = vs := by
  induction vs with
  | nil => simp [view, chunks]
  | cons v vs ih =>
    obtain ⟨hv, hvs⟩ := List.forall_mem_cons.mp h
    rw [view, pack_cons, chunks_append_of_length_eq (scalarWidth_pos T) (beBytes_length _ _), List.map_cons,
      ube_beBytes _ _ (encScalar_lt T v), decScalar_encScalar T v hv]
    exact congrArg (v :: ·) (ih hvs)

end Sys2Proof.Machine
end

section
/-! PROOFS. What the load commands do (40_load_pack.md R61, 60_exceptions.md R128). -/

namespace Sys2Proof.Machine

open Sys2Proof.Statements

/-! ### The outcome of a load -/

theorem inRange_iff (T : ScalarType) (v : Int) : inRange T v = true ↔ scalarMin T ≤ v ∧ v ≤ scalarMax T :=
  decide_eq_true_iff

theorem load_eq_capacityError {c : Config} {T : ScalarType} {vs : List Int} (h : c.capBytes < vs.length * scalarWidth T)
    (m : Memory) : load c T vs m = raise (.capacityError vs.length) m := if_pos h

/-- The index that a load reports is the first out of range, so it is the given one. -/
theorem load_eq_rangeError {c : Config} {T : ScalarType} {vs : List Int} (hcap : vs.length * scalarWidth T ≤ c.capBytes)
    {k : Nat} {v : Int} (hk : vs[k]? = some v) (hv : inRange T v = false)
    (hfirst : ∀ j u, j < k → vs[j]? = some u → inRange T u = true) (m : Memory) :
    load c T vs m = raise (.rangeError k) m := by
  obtain ⟨hover, -⟩ | ⟨-, k', v', hk', hv', hfirst', hload⟩ | ⟨-, hall, -⟩ := load_cases c T vs m
  · omega
  · obtain hlt | rfl | hgt := Nat.lt_trichotomy k k'
    · simp [hfirst' k v hlt hk] at hv
    · exact hload
    · simp [hfirst k' v' hgt hk'] at hv'
  · simp [hall v (List.mem_of_getElem? hk)] at hv

/-- A load that answers OK stores the packing of its values, whatever the buffer holds. -/
theorem load_eq_of_response_ok {c : Config} {T : ScalarType} {vs : List Int} {m : Memory} {r : Result}
    (h : (load c T vs m).response = .ok r) (m' : Memory) : load c T vs m' = storeAndAnswer (pack T vs) := by
  obtain ⟨-, hl⟩ | ⟨-, k, v, -, -, -, hl⟩ | ⟨hcap, hall, -⟩ := load_cases c T vs m
  · cases (congrArg Completion.response hl).symm.trans h
  · cases (congrArg Completion.response hl).symm.trans h
  · exact load_ok c T vs m' hcap hall

/-- LD.WORDS shares width, range and patterns with LD.U16 (40_load_pack.md R71). -/
theorem load_words_eq_load_u16 (c : Config) (vs : List Int) (m : Memory) : load c .words vs m = load c .u16 vs m := rfl

/-! ### The load commands -/

theorem exec_eq_of_completionOf {i : Instr} {s : State} {k : Completion} (h : completionOf i s.buf = k) :
    exec i s = .next (s.complete k) := by
  rw [exec_eq_perform, perform, h]

/-- A command that leaves the buffer only answers. -/
theorem exec_eq_answered {i : Instr} {s : State} {r : Response} (h : completionOf i s.buf = { buf := s.buf, response := r }) :
    exec i s = .next (answered s r) := exec_eq_of_completionOf h

/-- `mk` builds the load of type `T`, and `val` reads an operand as the integer that the load packs. -/
def LoadsAs {α : Type} (mk : List α → Instr) (T : ScalarType) (val : α → Int) : Prop :=
  ∀ vs m, completionOf (mk vs) m = load Config.thisHardware T (vs.map val) m

/-- An integer load packs its operands themselves. -/
theorem loadsAs_id {mk : List Int → Instr} {T : ScalarType}
    (h : ∀ vs m, completionOf (mk vs) m = load Config.thisHardware T vs m) : LoadsAs mk T id := by
  intro vs m
  rw [h, List.map_id]

theorem loadsAs_ldU16 : LoadsAs .ldU16 .u16 id := loadsAs_id fun _ _ => rfl
theorem loadsAs_ldI16 : LoadsAs .ldI16 .i16 id := loadsAs_id fun _ _ => rfl
theorem loadsAs_ldU32 : LoadsAs .ldU32 .u32 id := loadsAs_id fun _ _ => rfl
theorem loadsAs_ldI32 : LoadsAs .ldI32 .i32 id := loadsAs_id fun _ _ => rfl
theorem loadsAs_ldU64 : LoadsAs .ldU64 .u64 id := loadsAs_id fun _ _ => rfl
theorem loadsAs_ldI64 : LoadsAs .ldI64 .i64 id := loadsAs_id fun _ _ => rfl
theorem loadsAs_ldF32 : LoadsAs .ldF32 .f32 fun v => (v.toNat : Int) := fun _ _ => rfl
theorem loadsAs_ldF64 : LoadsAs .ldF64 .f64 fun v => (v.toNat : Int) := fun _ _ => rfl
theorem loadsAs_ldWords : LoadsAs .ldWords .words fun v => (v.toNat : Int) := fun _ _ => rfl

section

variable {α : Type} {mk : List α → Instr} {T : ScalarType} {val : α → Int} {vs : List α}

theorem exec_load_ok (hmk : LoadsAs mk T val) (hcap : vs.length * scalarWidth T ≤ 256)
    (hall : ∀ v ∈ vs, inRange T (val v) = true) (s : State) :
    exec (mk vs) s = .next (s.complete (storeAndAnswer (pack T (vs.map val)))) := by
  refine exec_eq_of_completionOf ((hmk vs s.buf).trans (load_ok _ T _ _ ?_ ?_))
  · rwa [List.length_map, capBytes_thisHardware]
  · exact List.forall_mem_map.mpr hall

theorem loadStores (hmk : LoadsAs mk T val) (hcap : vs.length * scalarWidth T ≤ 256)
    (hall : ∀ v ∈ vs, inRange T (val v) = true) (s : State) : LoadStores mk (scalarWidth T) val vs s := by
  refine ⟨_, exec_load_ok hmk hcap hall s, rfl, ?_, ?_, ?_⟩
  · simp
  · simp
  · intro k v hk j hj
    exact pack_getElem? (by rw [List.getElem?_map, hk, Option.map_some]) hj

theorem exec_load_capacityError (hmk : LoadsAs mk T val) (hcap : 256 < vs.length * scalarWidth T) (s : State) :
    exec (mk vs) s = .next (answered s (.error (.capacityError vs.length))) := by
  have hload := load_eq_capacityError (c := Config.thisHardware) (T := T) (vs := vs.map val)
    (by rwa [List.length_map, capBytes_thisHardware]) s.buf
  rw [List.length_map] at hload
  exact exec_eq_answered ((hmk vs s.buf).trans hload)

end

end Sys2Proof.Machine
end

section
/-! PROOFS. The statements of 40_load_pack.md. -/

namespace Sys2Proof.Machine

open Sys2Proof.Statements

/-! ### Loading and viewing by the same type -/

theorem roundTrip {α : Type} {ld : List α → Instr} {rd : Instr} {T : ScalarType} {val : α → Int} (hld : LoadsAs ld T val)
    (hrd : ∀ m, completionOf rd m = viewScalars T m) :
    RoundTrip ld rd T (scalarWidth T) val (scalarMin T) (scalarMax T) := by
  intro vs s hcap hrange
  have hall : ∀ v ∈ vs, inRange T (val v) = true := fun v hv => (inRange_iff T _).mpr (hrange v hv)
  refine ⟨_, exec_load_ok hld hcap hall s, exec_eq_answered ?_⟩
  rw [hrd, viewScalars, complete_buf, storeAndAnswer_buf, view_pack T _ (List.forall_mem_map.mpr hall), answer]

/-- Settles O26: for each type the view of a packing is the values packed. -/
theorem loadThenViewRoundTrips : Obligations.LoadThenViewRoundTrips :=
  ⟨roundTrip loadsAs_ldU16 fun _ => rfl, roundTrip loadsAs_ldI16 fun _ => rfl, roundTrip loadsAs_ldU32 fun _ => rfl,
    roundTrip loadsAs_ldI32 fun _ => rfl, roundTrip loadsAs_ldU64 fun _ => rfl, roundTrip loadsAs_ldI64 fun _ => rfl,
    roundTrip loadsAs_ldF32 fun _ => rfl, roundTrip loadsAs_ldF64 fun _ => rfl, roundTrip loadsAs_ldWords fun _ => rfl⟩

/-! ### The words of an operand element -/

theorem intElement_eq_elementWords (v : Int) : intElement v = elementWords 5 v := by
  simp [intElement, elementWords, List.range_succ, extractLsb'_ofInt]

/-- The words of a pattern from its value: the pattern is the two's complement of its value. -/
theorem extractLsb'_eq_ofInt {n s len : Nat} (h : s + len ≤ n) (x : BitVec n) :
    x.extractLsb' s len = BitVec.ofInt len ((x.toNat : Int) / 2 ^ s) := by
  rw [← extractLsb'_ofInt h, BitVec.ofInt_natCast, BitVec.ofNat_toNat, BitVec.setWidth_eq]

theorem f32Element_eq_elementWords (x : BitVec 32) : f32Element x = elementWords 2 x.toNat := by
  simp [f32Element, elementWords, List.range_succ, extractLsb'_eq_ofInt]

theorem f64Element_eq_elementWords (x : BitVec 64) : f64Element x = elementWords 4 x.toNat := by
  simp [f64Element, elementWords, List.range_succ, extractLsb'_eq_ofInt]

theorem elementWords_one (x : Word) : elementWords 1 x.toNat = [x] := by
  simp [elementWords]

/-! ### Integer loads -/

theorem integerLoad {mk : List Int → Instr} {T : ScalarType} (hmk : LoadsAs mk T id)
    (henc : ∀ vs, encode (mk vs) = encodeLoad T vs.length (vs.flatMap intElement)) :
    IntegerLoad mk (headerWord 1 T.code 0) (scalarWidth T) (scalarMin T) (scalarMax T) := by
  refine ⟨fun vs => ?_, fun vs s => ⟨fun hcap hrange => ?_, fun hcap => ?_, fun hcap k v hk hv hfirst => ?_⟩⟩
  · rw [henc, encodeLoad, funext intElement_eq_elementWords]
    rfl
  · exact loadStores hmk hcap (fun v hv => (inRange_iff T v).mpr (hrange v hv)) s
  · exact exec_load_capacityError hmk hcap s
  · refine exec_eq_answered ((hmk vs s.buf).trans ?_)
    rw [List.map_id]
    exact load_eq_rangeError hcap hk (Bool.eq_false_iff.mpr (mt (inRange_iff T v).mp hv))
      (fun j u hj hu => (inRange_iff T u).mpr (hfirst j u hj hu)) s.buf

/-- Settles O17: each clause is one case of the shared load, at the width and range of the type. -/
theorem integerLoadsPackOrRefuse : Obligations.IntegerLoadsPackOrRefuse :=
  ⟨integerLoad loadsAs_ldU16 fun _ => rfl, integerLoad loadsAs_ldI16 fun _ => rfl, integerLoad loadsAs_ldU32 fun _ => rfl,
    integerLoad loadsAs_ldI32 fun _ => rfl, integerLoad loadsAs_ldU64 fun _ => rfl, integerLoad loadsAs_ldI64 fun _ => rfl⟩

/-! ### Loads of patterns -/

/-- A pattern is always in range, so only the capacity can refuse the load. -/
theorem patternLoad {n ow : Nat} {mk : List (BitVec n) → Instr} {T : ScalarType} {hdr : Word}
    (hmk : LoadsAs mk T fun v => (v.toNat : Int)) (hmin : scalarMin T = 0) (hmax : scalarMax T = 2 ^ n - 1)
    (henc : LoadEncoding mk hdr ow fun v => (v.toNat : Int)) : PatternLoad mk hdr ow (scalarWidth T) :=
  ⟨henc, fun _ s => ⟨fun hcap => loadStores hmk hcap (fun v _ => inRange_pattern hmin hmax v) s,
    fun hcap => exec_load_capacityError hmk hcap s⟩⟩

theorem loadEncoding_ldF32 : LoadEncoding .ldF32 0x1600 2 fun v => (v.toNat : Int) := by
  intro vs
  rw [← funext f32Element_eq_elementWords]
  rfl

theorem loadEncoding_ldF64 : LoadEncoding .ldF64 0x1700 4 fun v => (v.toNat : Int) := by
  intro vs
  rw [← funext f64Element_eq_elementWords]
  rfl

theorem loadEncoding_ldWords : LoadEncoding .ldWords 0x1800 1 fun v => (v.toNat : Int) := by
  intro vs
  rw [funext elementWords_one, List.flatMap_singleton']
  rfl

/-- Settles O18: every 32-bit or 64-bit pattern is in its type's range. -/
theorem floatLoadsStorePatternsUnchanged : Obligations.FloatLoadsStorePatternsUnchanged :=
  ⟨patternLoad loadsAs_ldF32 rfl rfl loadEncoding_ldF32, patternLoad loadsAs_ldF64 rfl rfl loadEncoding_ldF64⟩

/-- Settles O19: the load of words is the load of 16-bit patterns, and as an operation it is that of U16. -/
theorem loadWordsIsLoadU16OnWords : Obligations.LoadWordsIsLoadU16OnWords := by
  refine ⟨fun _ => rfl, patternLoad loadsAs_ldWords rfl rfl loadEncoding_ldWords, fun ws s => ?_⟩
  exact exec_eq_of_completionOf (load_words_eq_load_u16 _ _ _)

/-! ### The old buffer -/

theorem exists_load_of_not_isView {i : Instr} (hview : isView i = false) (hbytes : i ≠ .swapBytes) (hwords : i ≠ .swapWords) :
    ∃ T vs, ∀ m, completionOf i m = load Config.thisHardware T vs m := by
  cases i with
  | ldU16 vs | ldI16 vs | ldU32 vs | ldI32 vs | ldU64 vs | ldI64 vs | ldF32 vs | ldF64 vs | ldWords vs =>
    exact ⟨_, _, fun _ => rfl⟩
  | swapBytes => exact absurd rfl hbytes
  | swapWords => exact absurd rfl hwords
  | _ => cases hview

/-- Settles O22: a load that answers OK stores the same packing over any buffer. -/
theorem loadResultIgnoresOldBuffer : Obligations.LoadResultIgnoresOldBuffer := by
  intro i s t m n hview hbytes hwords hexec hresp
  obtain ⟨T, vs, hload⟩ := exists_load_of_not_isView hview hbytes hwords
  obtain rfl := Host.Outcome.next.inj ((exec_eq_of_completionOf (hload s.buf)).symm.trans hexec)
  have hok : (load Config.thisHardware T vs s.buf).response = .ok (.stored n) := by simpa using hresp
  have hstore (m' : Memory) : completionOf i m' = load Config.thisHardware T vs s.buf :=
    (hload m').trans ((load_eq_of_response_ok hok m').trans (load_eq_of_response_ok hok s.buf).symm)
  rw [exec_eq_of_completionOf (hstore _), exec_eq_of_completionOf (hstore _), ← hok]
  exact ⟨rfl, rfl⟩

/-! ### The empty sequence -/

theorem exists_load_nil_of_mem {i : Instr}
    (h : i ∈ [.ldU16 [], .ldI16 [], .ldU32 [], .ldI32 [], .ldU64 [], .ldI64 [], .ldF32 [], .ldF64 [], .ldWords []]) :
    ∃ T, ∀ m, completionOf i m = load Config.thisHardware T [] m := by
  simp only [List.mem_cons, List.not_mem_nil, or_false] at h
  obtain rfl | rfl | rfl | rfl | rfl | rfl | rfl | rfl | rfl := h <;> exact ⟨_, fun _ => rfl⟩

theorem load_nil (c : Config) (T : ScalarType) (m : Memory) : load c T [] m = storeAndAnswer [] :=
  load_ok c T [] m (by simp) (by simp)

/-- Settles O20: the empty sequence passes both checks, and its packing is empty. -/
theorem emptyLoadsEmptyTheBuffer : Obligations.EmptyLoadsEmptyTheBuffer := by
  intro s i hi
  obtain ⟨T, hload⟩ := exists_load_nil_of_mem hi
  exact exec_eq_of_completionOf ((hload s.buf).trans (load_nil _ T _))

end Sys2Proof.Machine
end

section
/-! PROOFS. What a scalar view reads of the buffer, and the words it answers (41_view_unpack.md R81, 30_encoding.md R46). -/

namespace Sys2Proof.Machine

open Sys2Proof.Statements

/-! ### Big-endian values of parts of a byte sequence -/

/-- The leading bytes weigh 256 to the number of bytes behind them. -/
theorem ube_append (as bs : List Byte) : ube (as ++ bs) = 256 ^ bs.length * ube as + ube bs := by
  induction bs using List.reverseRecOn with
  | nil => simp [ube]
  | append_singleton bs b ih =>
    rw [← List.append_assoc, ube_concat, ube_concat, ih, List.length_append, List.length_singleton]
    ring

theorem memRead_add (off a b : Nat) (m : Memory) : memRead off (a + b) m = memRead off a m ++ memRead (off + a) b m := by
  rw [memRead, memRead, memRead, List.take_add, List.drop_drop]

/-- A chunk that the count admits lies inside the sequence. -/
theorem chunk_end_le {m : Memory} {w k : Nat} (h : k < m.length / w) : k * w + w ≤ m.length := by
  rw [← Nat.succ_mul]
  exact Nat.mul_le_of_le_div w _ _ h

theorem byteVal_eq (s : State) (off : Nat) : byteVal s off = (s.buf[off]?.getD 0).toNat := rfl

theorem chunkVal_succ (s : State) (off w : Nat) :
    chunkVal s off (w + 1) = 256 * chunkVal s off w + byteVal s (off + w) := by
  simp [chunkVal, List.range_succ]

theorem chunkVal_two (s : State) (off : Nat) : chunkVal s off 2 = 256 * byteVal s off + byteVal s (off + 1) := by
  simp [chunkVal, List.range_succ]

/-- The bytes read from the buffer have the value that 20_memory.md R23 gives their offsets. -/
theorem ube_memRead (s : State) {off w : Nat} (h : off + w ≤ s.buf.length) : ube (memRead off w s.buf) = chunkVal s off w := by
  induction w with
  | zero => simp [memRead, ube, chunkVal]
  | succ w ih =>
    have hlast : memRead (off + w) 1 s.buf = [s.buf[off + w]] := by
      rw [memRead, List.drop_eq_getElem_cons (by omega), List.take_succ_cons, List.take_zero]
    have hbyte : byteVal s (off + w) = s.buf[off + w].toNat := by
      rw [byteVal_eq, List.getElem?_eq_getElem (by omega), Option.getD_some]
    rw [memRead_add, hlast, ube_concat, ih (by omega), chunkVal_succ, hbyte]

/-! ### The elements of a view -/

/-- Element `k` of a view is chunk `k`, as the type reads it (41_view_unpack.md R81). -/
theorem view_getElem?_eq_some_iff {T : ScalarType} {m : Memory} {k : Nat} {v : Int} :
    (view T m)[k]? = some v ↔
      k < m.length / scalarWidth T ∧ decScalar T (ube (memRead (k * scalarWidth T) (scalarWidth T) m)) = v := by
  simp [view, chunks, List.getElem?_eq_some_iff]

theorem view_getElem?_eq_chunkVal (T : ScalarType) (s : State) {k : Nat} (hk : k < s.buf.length / scalarWidth T) :
    (view T s.buf)[k]? = some (decScalar T (chunkVal s (k * scalarWidth T) (scalarWidth T))) :=
  view_getElem?_eq_some_iff.mpr ⟨hk, congrArg (decScalar T) (ube_memRead s (chunk_end_le hk))⟩

/-! ### The payload of a view -/

/-- Pieces of whole words can be sent one by one or put together first. -/
theorem flatMap_wordsOfBytes {chs : List (List Byte)} (h : ∀ ch ∈ chs, ch.length % 2 = 0) :
    chs.flatMap wordsOfBytes = wordsOfBytes chs.flatten := by
  induction chs with
  | nil => rfl
  | cons ch chs ih =>
    obtain ⟨hch, hchs⟩ := List.forall_mem_cons.mp h
    rw [List.flatMap_cons, List.flatten_cons, wordsOfBytes_append _ _ hch, ih hchs]

/-- The payload of a view is the bytes of its chunks, whatever the type reads in them. -/
theorem resultPayload_view (T : ScalarType) (m : Memory) :
    resultPayload (.scalars T (view T m)) = wordsOfBytes (m.take (m.length / scalarWidth T * scalarWidth T)) := by
  have hlen : ∀ ch ∈ chunks (scalarWidth T) m, ch.length = scalarWidth T := fun _ => length_of_mem_chunks
  calc (view T m).flatMap (scalarWords T)
    _ = (chunks (scalarWidth T) m).flatMap fun ch => scalarWords T (decScalar T (ube ch)) := List.flatMap_map ..
    _ = (chunks (scalarWidth T) m).flatMap wordsOfBytes :=
      List.flatMap_congr fun ch hch => scalarWords_of_chunk T ch (hlen ch hch)
    _ = wordsOfBytes (chunks (scalarWidth T) m).flatten :=
      flatMap_wordsOfBytes fun ch hch => by rw [hlen ch hch, scalarWidth_even]
    _ = wordsOfBytes (m.take (m.length / scalarWidth T * scalarWidth T)) := congrArg wordsOfBytes (flatten_chunks ..)

/-- Word `k` of the leading bytes of the buffer is the word at offset `2k`. -/
theorem wordsOfBytes_take_getElem? (s : State) {n k : Nat} (hn : n ≤ s.buf.length) (hk : 2 * k + 1 < n) :
    (wordsOfBytes (s.buf.take n))[k]? = some (BitVec.ofNat 16 (chunkVal s (2 * k) 2)) := by
  rw [wordsOfBytes_getElem? _ _ (by rw [List.length_take]; omega), List.getElem?_take_of_lt hk,
    List.getElem?_take_of_lt (by omega), chunkVal_two, byteVal_eq, byteVal_eq]

/-- The rule of a scalar view: `dec` is how its type reads a pattern. -/
theorem scalarView {i : Instr} {hdr : Word} {T : ScalarType} {dec : Nat → Int} (henc : encode i = [hdr])
    (hview : ∀ m, completionOf i m = viewScalars T m) (hdec : ∀ u, decScalar T u = dec u) :
    ScalarView i hdr T (scalarWidth T) dec := by
  refine ⟨henc, fun s => ⟨view T s.buf, wordsOfBytes (s.buf.take (s.buf.length / scalarWidth T * scalarWidth T)),
    exec_eq_answered (hview s.buf), view_length T s.buf, fun k hk => ?_, ?_, ?_, fun k hk => ?_⟩⟩
  · rw [view_getElem?_eq_chunkVal T s hk, hdec]
  · rw [← resultPayload_view, ← view_length]
    rfl
  · have heven : s.buf.length / scalarWidth T * scalarWidth T % 2 = 0 := by rw [Nat.mul_mod, scalarWidth_even, Nat.mul_zero]
    have hle := Nat.div_mul_le_self s.buf.length (scalarWidth T)
    rw [wordsOfBytes_length, List.length_take]
    omega
  · exact wordsOfBytes_take_getElem? s (Nat.div_mul_le_self _ _) (by omega)

/-! ### One byte sequence under two types -/

theorem decScalar_of_unsigned {T : ScalarType} (hT : scalarSigned T = false) (u : Nat) : decScalar T u = u := by
  simp [decScalar, hT]

/-- The signed view is the unsigned view of its width under the two's-complement reading (41_view_unpack.md R94). -/
theorem view_signed_eq_map {S U : ScalarType} {n : Nat} {m : Memory} (hn : scalarBits S = n) (hn' : scalarBits U = n)
    (hS : scalarSigned S = true) (hU : scalarSigned U = false) : view S m = (view U m).map fun u => signedReading n u.toNat := by
  have hdec (u : Nat) : decScalar S u = signedReading n (decScalar U u).toNat := by
    rw [decScalar_of_unsigned hU, Int.toNat_natCast, decScalar, if_pos hS, hn]
    rfl
  rw [view, view, scalarWidth, scalarWidth, hn, hn', List.map_map]
  exact List.map_congr_left fun ch _ => hdec (ube ch)

theorem view_length_of_double_width {T T' : ScalarType} {m : Memory} (hw : scalarWidth T = scalarWidth T' * 2) :
    (view T m).length = (view T' m).length / 2 := by
  rw [view_length, view_length, hw, Nat.div_div_eq_div_mul]

/-- An unsigned chunk of double width is its two halves, the first the more significant (41_view_unpack.md R94). -/
theorem view_getElem?_of_double_width {T T' : ScalarType} (hw : scalarWidth T = scalarWidth T' * 2)
    (hT : scalarSigned T = false) (hT' : scalarSigned T' = false) {m : Memory} {k : Nat} {a b : Int}
    (hk : k < (view T m).length) (ha : (view T' m)[2 * k]? = some a) (hb : (view T' m)[2 * k + 1]? = some b) :
    (view T m)[k]? = some (256 ^ scalarWidth T' * a + b) := by
  obtain ⟨-, rfl⟩ := view_getElem?_eq_some_iff.mp ha
  obtain ⟨hlt, rfl⟩ := view_getElem?_eq_some_iff.mp hb
  rw [view_length] at hk
  refine view_getElem?_eq_some_iff.mpr ⟨hk, ?_⟩
  have hhigh : k * (scalarWidth T' * 2) = 2 * k * scalarWidth T' := by ring
  have hlow : 2 * k * scalarWidth T' + scalarWidth T' = (2 * k + 1) * scalarWidth T' := by ring
  rw [decScalar_of_unsigned hT, decScalar_of_unsigned hT', decScalar_of_unsigned hT', hw, hhigh, Nat.mul_two, memRead_add, hlow,
    ube_append, memRead_length _ _ _ (chunk_end_le hlt)]
  push_cast
  rfl

end Sys2Proof.Machine
end

section
/-! PROOFS. A float pattern from its fields (41_view_unpack.md R91). -/

namespace Sys2Proof.Machine

/-- The pattern with the given sign, exponent and fraction fields. -/
def floatPattern (L : FloatLayout) (s : Bool) (e f : Nat) : Nat :=
  (if s then 2 ^ (L.expBits + L.fracBits) else 0) + e * 2 ^ L.fracBits + f

/-- A digit below 2 is 1 where the value reaches the digit's place, as the quiet bit is. -/
theorem div_beq_one_eq_decide_le {h f : Nat} (hf : f < 2 * h) : (f / h == 1) = decide (h ≤ f) := by
  have hiff : f / h = 1 ↔ h ≤ f := by
    rw [Nat.div_eq_iff (by omega)]
    omega
  rw [beq_eq_decide, decide_eq_decide.mpr hiff]

section

variable {L : FloatLayout} {e f : Nat} (s : Bool)

/-- Below stands the fraction, above it the exponent, and above that the sign. -/
theorem floatPattern_eq : floatPattern L s e f = 2 ^ L.fracBits * (2 ^ L.expBits * s.toNat + e) + f := by
  cases s <;> simp [floatPattern] <;> ring

theorem floatFraction_floatPattern (hf : f < 2 ^ L.fracBits) : floatFraction L (floatPattern L s e f) = f := by
  rw [floatFraction, floatPattern_eq, Nat.mul_add_mod, Nat.mod_eq_of_lt hf]

theorem floatPattern_div (hf : f < 2 ^ L.fracBits) :
    floatPattern L s e f / 2 ^ L.fracBits = 2 ^ L.expBits * s.toNat + e := by
  rw [floatPattern_eq, Nat.mul_add_div (by positivity), Nat.div_eq_of_lt hf, Nat.add_zero]

theorem floatExponent_floatPattern (he : e < 2 ^ L.expBits) (hf : f < 2 ^ L.fracBits) :
    floatExponent L (floatPattern L s e f) = e := by
  rw [floatExponent, floatPattern_div s hf, Nat.mul_add_mod, Nat.mod_eq_of_lt he]

theorem floatNegative_floatPattern (he : e < 2 ^ L.expBits) (hf : f < 2 ^ L.fracBits) :
    floatNegative L (floatPattern L s e f) = s := by
  rw [floatNegative, Nat.add_comm, pow_add, ← Nat.div_div_eq_div_mul, floatPattern_div s hf, Nat.mul_add_div (by positivity),
    Nat.div_eq_of_lt he]
  cases s <;> rfl

/-- The datum of a pattern by its fields, every exponent offset gathered in one constant. -/
theorem readFloat_floatPattern (hF : 0 < L.fracBits) (he : e < 2 ^ L.expBits) (hf : f < 2 ^ L.fracBits) :
    readFloat L (floatPattern L s e f) =
      if e = 0 then (if f = 0 then .zero s else .subnormal s f (1 - (L.bias + L.fracBits : Nat)))
      else if e = 2 ^ L.expBits - 1 then
        (if f = 0 then .infinity s else .nan s (decide (2 ^ (L.fracBits - 1) ≤ f)) (f % 2 ^ (L.fracBits - 1)))
      else .normal s (2 ^ L.fracBits + f) (e - (L.bias + L.fracBits : Nat)) := by
  have hquiet : (f / 2 ^ (L.fracBits - 1) == 1) = decide (2 ^ (L.fracBits - 1) ≤ f) :=
    div_beq_one_eq_decide_le (by rwa [mul_pow_sub_one (by omega)])
  rw [readFloat, floatNegative_floatPattern s he hf, floatExponent_floatPattern s he hf, floatFraction_floatPattern s hf, hquiet,
    Nat.cast_add, Int.sub_sub, Int.sub_sub]

end

end Sys2Proof.Machine
end

section
/-! PROOFS. The statements of 41_view_unpack.md. -/

namespace Sys2Proof.Machine

open Sys2Proof.Statements

/-- Settles O11: a view completes with the buffer it was given and a response of its own function of the buffer. -/
theorem viewsReadTheBufferAlone : Obligations.ViewsReadTheBufferAlone := by
  intro i m hview
  have hcompletes : completionOf i m = { buf := m, response := (completionOf i m).response } :=
    congrArg (Completion.mk · (completionOf i m).response) (completionOf_buf_of_isView hview m)
  exact ⟨_, fun p rs => exec_eq_answered (s := { buf := m, pending := p, responses := rs }) hcompletes⟩

/-- Settles O23: each view at the width and reading of its type. -/
theorem integerViewsUnpackChunks : Obligations.IntegerViewsUnpackChunks :=
  ⟨scalarView rfl (fun _ => rfl) fun _ => rfl, scalarView rfl (fun _ => rfl) fun _ => rfl,
    scalarView rfl (fun _ => rfl) fun _ => rfl, scalarView rfl (fun _ => rfl) fun _ => rfl,
    scalarView rfl (fun _ => rfl) fun _ => rfl, scalarView rfl (fun _ => rfl) fun _ => rfl⟩

/-- Settles O24: a float type reads its pattern as it stands. -/
theorem floatViewsReturnPatterns : Obligations.FloatViewsReturnPatterns :=
  ⟨scalarView rfl (fun _ => rfl) fun _ => rfl, scalarView rfl (fun _ => rfl) fun _ => rfl⟩

/-- Settles O25: WORDS is two bytes wide and unsigned. -/
theorem viewWordsReadsWords : Obligations.ViewWordsReadsWords := scalarView rfl (fun _ => rfl) fun _ => rfl

/-- Settles O27: types of one width differ in the reading alone, and a chunk of double width is two chunks. -/
theorem lensLawsOverOneBuffer : Obligations.LensLawsOverOneBuffer := fun _ =>
  ⟨view_signed_eq_map rfl rfl rfl rfl, view_signed_eq_map rfl rfl rfl rfl, view_signed_eq_map rfl rfl rfl rfl, rfl, rfl, rfl,
    view_length_of_double_width rfl, view_length_of_double_width rfl,
    fun _ _ _ => view_getElem?_of_double_width rfl rfl rfl, fun _ _ _ => view_getElem?_of_double_width rfl rfl rfl⟩

/-- Settles O45: both layouts are read by their fields, and 1.0 has exponent field 127 and fraction 0. -/
theorem floatPatternReadingByFields : Obligations.FloatPatternReadingByFields :=
  ⟨fun s _ _ he hf => readFloat_floatPattern (L := binary32) s (by decide) he hf,
    fun s _ _ he hf => readFloat_floatPattern (L := binary64) s (by decide) he hf, by decide⟩

end Sys2Proof.Machine
end

section
/-! PROOFS. The characters of a hexadecimal and of a decoded text (42_raw_hex_text.md R101 to R107). -/

namespace Sys2Proof.Machine

open Sys2Proof.Statements

theorem byteVal_lt (s : State) (off : Nat) : byteVal s off < 256 := BitVec.isLt _

theorem byteVal_of_getElem? {s : State} {off : Nat} {b : Byte} (h : s.buf[off]? = some b) : byteVal s off = b.toNat := by
  rw [byteVal_eq, h, Option.getD_some]

/-! ### Hexadecimal groups -/

/-- With one more separator behind the last group, every group is followed by one. -/
theorem intercalate_append_separator {α : Type} (sep : List α) {gs : List (List α)} (h : gs ≠ []) :
    sep.intercalate gs ++ sep = gs.flatMap (· ++ sep) := by
  induction gs with
  | nil => contradiction
  | cons g gs ih =>
    cases gs with
    | nil => simp
    | cons g' gs =>
      rw [List.intercalate_cons_cons, List.append_assoc, ih (by simp)]
      rfl

/-- The four digits of bytes `2k` and `2k + 1` (42_raw_hex_text.md R101). -/
def hexGroup (m : Memory) (k : Nat) : List CodePoint := hex2 (m[2 * k]?.getD 0) ++ hex2 (m[2 * k + 1]?.getD 0)

theorem memRead_two {m : Memory} {off : Nat} (h : off + 2 ≤ m.length) :
    memRead off 2 m = [m[off]?.getD 0, m[off + 1]?.getD 0] := by
  rw [memRead, List.drop_eq_getElem_cons (by omega), List.drop_eq_getElem_cons (by omega), List.getElem?_eq_getElem (by omega),
    List.getElem?_eq_getElem (by omega)]
  rfl

theorem hexText_eq_intercalate (m : Memory) :
    hexText m = [Config.hexDelim].intercalate ((List.range (m.length / 2)).map (hexGroup m)) := by
  have hchunk : ∀ k ∈ List.range (m.length / 2), (memRead (k * 2) 2 m).flatMap hex2 = hexGroup m k := by
    intro k hk
    rw [memRead_two (chunk_end_le (List.mem_range.mp hk)), Nat.mul_comm]
    rfl
  rw [hexText, chunks, List.map_map]
  exact congrArg _ (List.map_congr_left hchunk)

/-- Group `k` starts at character `5k`, and the delimiter follows it wherever the text goes on. -/
theorem hexText_getElem? {m : Memory} {k j : Nat} (hj : j < 5) (hlt : 5 * k + j < 5 * (m.length / 2) - 1) :
    (hexText m)[5 * k + j]? = (hexGroup m k ++ [Config.hexDelim])[j]? := by
  have hk : (List.range (m.length / 2))[k]? = some k := List.getElem?_range (by omega)
  have hfive : ∀ k, (hexGroup m k ++ [Config.hexDelim]).length = 5 := fun _ => rfl
  have hgroups : (List.range (m.length / 2)).map (hexGroup m) ≠ [] := by
    rw [ne_eq, List.map_eq_nil_iff, List.range_eq_nil]
    omega
  rw [← List.getElem?_append_left (l₂ := [Config.hexDelim]) (by rwa [hexText_length]), hexText_eq_intercalate,
    intercalate_append_separator _ hgroups, List.flatMap_map, Nat.mul_comm]
  exact flatMap_getElem?_of_length_eq hfive hk hj

theorem digitCodes_getElem? : ∀ d < 16, digitCodes[d]? = some (hexDigit d) := by decide

theorem digitCodes_high (s : State) (off : Nat) : digitCodes[byteVal s off / 16]? = some (hexDigit (byteVal s off / 16)) :=
  digitCodes_getElem? _ (Nat.div_lt_of_lt_mul (byteVal_lt s off))

theorem digitCodes_low (s : State) (off : Nat) : digitCodes[byteVal s off % 16]? = some (hexDigit (byteVal s off % 16)) :=
  digitCodes_getElem? _ (Nat.mod_lt _ (by decide))

/-! ### Text -/

/-- Where every byte has a code point, the view answers the stripped characters (42_raw_hex_text.md R103). -/
theorem viewText_of_valid {map : Byte → Option CodePoint} {m : Memory} (h : ∀ b ∈ m, (map b).isSome = true) :
    viewText map m = answer (.chars (stripNuls (m.map fun b => (map b).getD 0))) m := by
  rw [viewText, textOf, decodeChars_valid map 0 m h]

/-- The first byte without a code point is reported (60_exceptions.md R122). -/
theorem viewText_of_invalid {map : Byte → Option CodePoint} {m : Memory} {i : Nat} {b : Byte} (hb : m[i]? = some b)
    (hinvalid : map b = none) (hbefore : ∀ j c, j < i → m[j]? = some c → (map c).isSome = true) :
    viewText map m = raise (.decodeError i) m := by
  rw [viewText, textOf, decodeChars_invalid map 0 i m b hb hinvalid hbefore, Nat.zero_add]

theorem dropWhile_congr_of_mem {α : Type} {p q : α → Bool} {l : List α} (h : ∀ a ∈ l, p a = q a) :
    l.dropWhile p = l.dropWhile q := by
  induction l with
  | nil => rfl
  | cons a l ih =>
    obtain ⟨ha, hl⟩ := List.forall_mem_cons.mp h
    rw [List.dropWhile_cons, List.dropWhile_cons, ha, ih hl]

/-- Where 0x00 and no other byte becomes U+0000, the characters stripped are those of the bytes stripped (42_raw_hex_text.md
R107). -/
theorem stripNuls_map {f : Byte → CodePoint} {m : Memory} (h : ∀ b ∈ m, f b = 0 ↔ b = 0) :
    stripNuls (m.map f) = (m.reverse.dropWhile (· == 0)).reverse.map f := by
  have hnul : ∀ b ∈ m.reverse, (f b == 0) = (b == 0) := fun b hb => by
    rw [Bool.eq_iff_iff, beq_iff_eq, beq_iff_eq, h b (List.mem_reverse.mp hb)]
  rw [stripNuls, ← List.map_reverse, List.dropWhile_map, ← List.map_reverse]
  exact congrArg (List.map f ·.reverse) (dropWhile_congr_of_mem hnul)

/-- The rule of RD.TEXT for an encoding that reads each byte below `bound` as its own code point. -/
theorem textView {enc : TextEnc} {hdr : Word} {bound : Nat} (henc : encode (.rdText enc) = [hdr])
    (hmap : ∀ b : Byte, b.toNat < bound → encodingMap enc b = some b.toNat) : TextView enc hdr bound := by
  refine ⟨henc, fun s hvalid => ?_⟩
  have hchars : viewText (encodingMap enc) s.buf = answer (.chars (stripNuls (s.buf.map BitVec.toNat))) s.buf := by
    have hmaps : ∀ b ∈ s.buf, encodingMap enc b = some b.toNat := fun b hb => hmap b (hvalid b hb)
    rw [viewText_of_valid fun b hb => by rw [hmaps b hb, Option.isSome_some],
      List.map_congr_left fun b hb => by rw [hmaps b hb, Option.getD_some]]
  have hbyte : ∀ k, k < s.buf.length → (s.buf.map BitVec.toNat)[k]? = some (byteVal s k) := by
    intro k hk
    rw [List.getElem?_map, List.getElem?_eq_getElem hk, byteVal_of_getElem? (List.getElem?_eq_getElem hk), Option.map_some]
  obtain ⟨hle, hkept, hdropped, hlast⟩ := stripNuls_spec (s.buf.map BitVec.toNat)
  rw [List.length_map] at hle hdropped
  refine ⟨_, exec_eq_answered hchars, rfl, hle, fun k hk => ?_, fun k hk hlt => ?_, hlast⟩
  · rw [hkept k hk, hbyte k (hk.trans_le hle)]
  · exact Option.some.inj ((hbyte k hlt).symm.trans (hdropped k hk hlt))

end Sys2Proof.Machine
end

section
/-! PROOFS. The statements of 42_raw_hex_text.md. -/

namespace Sys2Proof.Machine

open Sys2Proof.Statements

/-- Settles O28: the payload is the words of the buffer, and a missing last byte counts as 0. -/
theorem bytesViewReturnsTheBuffer : Obligations.BytesViewReturnsTheBuffer := by
  refine ⟨rfl, fun s => ⟨exec_eq_answered rfl, wordsOfBytes s.buf, rfl, wordsOfBytes_length _, fun k hk => ?_⟩⟩
  rw [wordsOfBytes_length] at hk
  exact wordsOfBytes_getElem? s.buf k (by omega)

/-- Settles O29: group `k` and the delimiter behind it are five characters, and only the last group has none behind it. -/
theorem hexViewGroupsUppercaseDigits : Obligations.HexViewGroupsUppercaseDigits := by
  refine ⟨rfl, fun s => ⟨hexText s.buf, exec_eq_answered rfl, rfl, ?_, fun k hk => ?_, fun k hk => ?_⟩⟩
  · rw [hexText_length]
    split <;> omega
  · rw [digitCodes_high, digitCodes_low, digitCodes_high, digitCodes_low]
    exact ⟨hexText_getElem? (j := 0) (by decide) (by omega), hexText_getElem? (by decide) (by omega),
      hexText_getElem? (by decide) (by omega), hexText_getElem? (by decide) (by omega)⟩
  · exact hexText_getElem? (by decide) (by omega)

/-- Settles O30: ISO 8859-1 reads every byte as its own code point, US-ASCII those below 0x80 and no other. -/
theorem textViewDecodesThenStrips : Obligations.TextViewDecodesThenStrips := by
  have hascii : ∀ b : Byte, b.toNat < 128 → encodingMap .ascii b = some b.toNat := fun _ hb => if_pos hb
  refine ⟨textView rfl fun _ _ => rfl, textView rfl hascii, fun s i b hb hbad hbefore => ?_⟩
  refine exec_eq_answered (viewText_of_invalid hb (if_neg (by omega)) fun j c hj hc => ?_)
  rw [hascii c (hbefore j c hj hc), Option.isSome_some]

/-- Settles O31: on bytes that the map decodes, U+0000 and 0x00 stand at the same places. -/
theorem anyEncodingMapStripsAlike : Obligations.AnyEncodingMapStripsAlike := by
  intro map s hzero hvalid
  have hnul : ∀ b ∈ s.buf, (map b).getD 0 = 0 ↔ b = 0 := by
    intro b hb
    obtain ⟨c, hc⟩ := Option.isSome_iff_exists.mp (hvalid b hb)
    rw [← hzero b, hc, Option.getD_some, Option.some_inj]
  rw [viewText_of_valid hvalid, stripNuls_map hnul]
  rfl

end Sys2Proof.Machine
end

section
/-! PROOFS. Where each byte goes under the two order transforms, and the loops of writes that say the same (43_order_transforms.md R110
to R115). -/

namespace Sys2Proof.Machine

/-! ### SWAP.BYTES -/

theorem swapPairs_getElem?_of_pair {m : Memory} {k : Nat} (h : 2 * k + 1 < m.length) :
    (swapPairs m)[2 * k]? = m[2 * k + 1]? ∧ (swapPairs m)[2 * k + 1]? = m[2 * k]? := by
  induction m using swapPairs.induct generalizing k with
  | case1 b0 b1 rest ih =>
    cases k with
    | zero => exact ⟨rfl, rfl⟩
    | succ k => exact ih (Nat.lt_of_add_lt_add_right (n := 2) h)
  | case2 rest hshort =>
    match rest, hshort with
    | b0 :: b1 :: rest, hshort => exact absurd rfl (hshort b0 b1 rest)
    | [], _ | [_], _ => simp at h

theorem swapPairs_getElem?_of_le {m : Memory} {off : Nat} (h : 2 * (m.length / 2) ≤ off) : (swapPairs m)[off]? = m[off]? := by
  induction m using swapPairs.induct generalizing off with
  | case1 b0 b1 rest ih =>
    rw [List.length_cons, List.length_cons] at h
    obtain ⟨off, rfl⟩ : ∃ n, off = n + 2 := ⟨off - 2, by omega⟩
    exact ih (by omega)
  | case2 rest hshort => rw [swapPairs.eq_2 _ hshort]

theorem swapPairs_perm (m : Memory) : (swapPairs m).Perm m := by
  induction m using swapPairs.induct with
  | case1 b0 b1 rest ih => exact (List.Perm.swap b0 b1 _).trans ((ih.cons b1).cons b0)
  | case2 rest hshort => rw [swapPairs.eq_2 _ hshort]

theorem swapPairs_swapPairs (m : Memory) : swapPairs (swapPairs m) = m := by
  induction m using swapPairs.induct with
  | case1 b0 b1 rest ih => rw [swapPairs, swapPairs, ih]
  | case2 rest hshort => rw [swapPairs.eq_2 _ hshort, swapPairs.eq_2 _ hshort]

/-! ### SWAP.WORDS -/

theorem length_lt_four_of_forall_ne {m : Memory} (h : ∀ b0 b1 b2 b3 rest, m = b0 :: b1 :: b2 :: b3 :: rest → False) :
    m.length < 4 := by
  match m, h with
  | b0 :: b1 :: b2 :: b3 :: rest, h => exact (h b0 b1 b2 b3 rest rfl).elim
  | [], _ | [_], _ | [_, _], _ | [_, _, _], _ => simp

theorem swapGroups_of_length_lt {m : Memory} (h : m.length < 4) : swapGroups m = m := by
  refine swapGroups.eq_2 m fun b0 b1 b2 b3 rest hm => ?_
  simp only [hm, List.length_cons] at h
  omega

theorem swapGroups_getElem?_of_group {m : Memory} {j : Nat} (h : 4 * j + 3 < m.length) :
    (swapGroups m)[4 * j]? = m[4 * j + 2]? ∧ (swapGroups m)[4 * j + 1]? = m[4 * j + 3]? ∧
    (swapGroups m)[4 * j + 2]? = m[4 * j]? ∧ (swapGroups m)[4 * j + 3]? = m[4 * j + 1]? := by
  induction m using swapGroups.induct generalizing j with
  | case1 b0 b1 b2 b3 rest ih =>
    cases j with
    | zero => exact ⟨rfl, rfl, rfl, rfl⟩
    | succ j => exact ih (Nat.lt_of_add_lt_add_right (n := 4) h)
  | case2 rest hshort =>
    have hlt := length_lt_four_of_forall_ne hshort
    omega

theorem swapGroups_getElem?_of_le {m : Memory} {off : Nat} (h : 4 * (m.length / 4) ≤ off) :
    (swapGroups m)[off]? = m[off]? := by
  induction m using swapGroups.induct generalizing off with
  | case1 b0 b1 b2 b3 rest ih =>
    simp only [List.length_cons] at h
    obtain ⟨off, rfl⟩ : ∃ n, off = n + 4 := ⟨off - 4, by omega⟩
    exact ih (by omega)
  | case2 rest hshort => rw [swapGroups.eq_2 _ hshort]

theorem swapGroups_perm (m : Memory) : (swapGroups m).Perm m := by
  induction m using swapGroups.induct with
  | case1 b0 b1 b2 b3 rest ih => exact (List.perm_append_comm (l₁ := [b2, b3]) (l₂ := [b0, b1])).append ih
  | case2 rest hshort => rw [swapGroups.eq_2 _ hshort]

theorem swapGroups_swapGroups (m : Memory) : swapGroups (swapGroups m) = m := by
  induction m using swapGroups.induct with
  | case1 b0 b1 b2 b3 rest ih => rw [swapGroups, swapGroups, ih]
  | case2 rest hshort => rw [swapGroups.eq_2 _ hshort, swapGroups.eq_2 _ hshort]

/-! ### The two together -/

/-- Inside a group both orders give the same four bytes; a remainder has no group for SWAP.WORDS to move. -/
theorem swapPairs_swapGroups (m : Memory) : swapPairs (swapGroups m) = swapGroups (swapPairs m) := by
  induction m using swapGroups.induct with
  | case1 b0 b1 b2 b3 rest ih => simp only [swapGroups, swapPairs, ih]
  | case2 rest hshort =>
    have hlt := length_lt_four_of_forall_ne hshort
    rw [swapGroups_of_length_lt hlt, swapGroups_of_length_lt (by rwa [swapPairs_length])]

/-- A group is two pairs: the words change places, then the bytes of each (43_order_transforms.md R114). -/
theorem swapPairs_swapGroups_getElem? {m : Memory} {j : Nat} (h : 4 * j + 3 < m.length) :
    (swapPairs (swapGroups m))[4 * j]? = m[4 * j + 3]? ∧ (swapPairs (swapGroups m))[4 * j + 1]? = m[4 * j + 2]? ∧
    (swapPairs (swapGroups m))[4 * j + 2]? = m[4 * j + 1]? ∧ (swapPairs (swapGroups m))[4 * j + 3]? = m[4 * j]? := by
  have hlen := swapGroups_length m
  obtain ⟨hg0, hg1, hg2, hg3⟩ := swapGroups_getElem?_of_group h
  obtain ⟨hp0, hp1⟩ := swapPairs_getElem?_of_pair (m := swapGroups m) (k := 2 * j) (by omega)
  obtain ⟨hp2, hp3⟩ := swapPairs_getElem?_of_pair (m := swapGroups m) (k := 2 * j + 1) (by omega)
  rw [← hg0, ← hg1, ← hg2, ← hg3]
  rw [← Nat.mul_assoc] at hp0 hp1
  rw [Nat.mul_add, ← Nat.mul_assoc] at hp2 hp3
  exact ⟨hp0, hp1, hp2, hp3⟩

/-! ### The loops of writes -/

theorem memRead_one {m : Memory} {off : Nat} (h : off < m.length) : memRead off 1 m = [m[off]?.getD 0] := by
  rw [memRead, List.drop_eq_getElem_cons h, List.getElem?_eq_getElem h]
  rfl

/-- A write that begins where `pre` ends. -/
theorem memWrite_append {pre post bs : Memory} {off : Nat} (hoff : pre.length = off) (hbs : bs.length ≤ post.length) :
    memWrite off bs (pre ++ post) = pre ++ bs ++ post.drop bs.length := by
  subst hoff
  rw [memWrite, if_pos (by simpa using hbs), List.take_left, ← List.drop_drop, List.drop_left]

/-- Writing the first `n` blocks of `new` over `old`, one after the other. -/
theorem foldl_memWrite_blocks {w n : Nat} {old new : Memory} {block : Nat → List Byte} (hlen : new.length = old.length)
    (hn : w * n ≤ old.length) (hblock : ∀ k < n, block k = memRead (w * k) w new) :
    (List.range n).foldl (fun m k => memWrite (w * k) (block k) m) old = new.take (w * n) ++ old.drop (w * n) := by
  induction n with
  | zero => rfl
  | succ n ih =>
    rw [Nat.mul_succ] at hn
    have hw : (memRead (w * n) w new).length = w := memRead_length _ _ _ (hlen ▸ hn)
    rw [List.range_succ, List.foldl_append, ih (by omega) fun k hk => hblock k (by omega), List.foldl_cons, List.foldl_nil,
      hblock n (by omega), memWrite_append (by rw [List.length_take]; omega) (by rw [hw, List.length_drop]; omega), hw,
      List.drop_drop, Nat.mul_succ, List.take_add, memRead]

/-- A loop that writes every block of `new`, over an `old` that has the same remainder, gives `new`. -/
theorem foldl_memWrite_eq {w n : Nat} {old new : Memory} {block : Nat → List Byte} (hlen : new.length = old.length)
    (hn : w * n ≤ old.length) (hblock : ∀ k < n, block k = memRead (w * k) w new)
    (hrest : ∀ off, w * n ≤ off → new[off]? = old[off]?) :
    (List.range n).foldl (fun m k => memWrite (w * k) (block k) m) old = new := by
  have hdrop : old.drop (w * n) = new.drop (w * n) := by
    refine List.ext_getElem? fun i => ?_
    rw [List.getElem?_drop, List.getElem?_drop, hrest _ (by omega)]
  rw [foldl_memWrite_blocks hlen hn hblock, hdrop, List.take_append_drop]

theorem memRead_swapPairs {m : Memory} {k : Nat} (h : 2 * k + 1 < m.length) :
    memRead (2 * k) 2 (swapPairs m) = memRead (2 * k + 1) 1 m ++ memRead (2 * k) 1 m := by
  obtain ⟨h0, h1⟩ := swapPairs_getElem?_of_pair h
  rw [memRead_two (by rwa [swapPairs_length]), h0, h1, memRead_one h, memRead_one (by omega)]
  rfl

theorem memRead_swapGroups {m : Memory} {j : Nat} (h : 4 * j + 3 < m.length) :
    memRead (4 * j) 4 (swapGroups m) = memRead (4 * j + 2) 2 m ++ memRead (4 * j) 2 m := by
  obtain ⟨h0, h1, h2, h3⟩ := swapGroups_getElem?_of_group h
  have hlen := swapGroups_length m
  rw [memRead_add _ 2 2, memRead_two (by omega), memRead_two (by omega), h0, h1, h2, h3, memRead_two (by omega),
    memRead_two (by omega)]

end Sys2Proof.Machine
end

section
/-! PROOFS. The statements of 43_order_transforms.md. -/

namespace Sys2Proof.Machine

open Sys2Proof.Statements

/-- The state after a transform `f` that keeps the length (43_order_transforms.md R110). -/
def transformed (f : Memory → Memory) (s : State) : State :=
  s.complete { buf := f s.buf, response := .ok (.stored (s.buf.length / 2)) }

theorem storeAndAnswer_of_length_eq {m n : Memory} (h : n.length = m.length) :
    storeAndAnswer n = { buf := n, response := .ok (.stored (m.length / 2)) } := by
  rw [storeAndAnswer, h]

theorem exec_swapBytes (s : State) : exec .swapBytes s = .next (transformed swapPairs s) :=
  exec_eq_of_completionOf (storeAndAnswer_of_length_eq (swapPairs_length _))

theorem exec_swapWords (s : State) : exec .swapWords s = .next (transformed swapGroups s) :=
  exec_eq_of_completionOf (storeAndAnswer_of_length_eq (swapGroups_length _))

/-- Settles O32: a lone last byte stands behind the last pair. -/
theorem swapBytesExchangesEveryPair : Obligations.SwapBytesExchangesEveryPair :=
  ⟨rfl, fun s => ⟨transformed swapPairs s, exec_swapBytes s, rfl, rfl, swapPairs_length _,
    fun _ => swapPairs_getElem?_of_pair, fun hodd => swapPairs_getElem?_of_le (by omega)⟩⟩

/-- Settles O33, from where the bytes of a group and of the remainder go. -/
theorem swapWordsExchangesWordsOfGroups : Obligations.SwapWordsExchangesWordsOfGroups :=
  ⟨rfl, fun s => ⟨transformed swapGroups s, exec_swapWords s, rfl, rfl, swapGroups_length _,
    fun _ => swapGroups_getElem?_of_group, fun _ hoff => swapGroups_getElem?_of_le (by omega)⟩⟩

/-- Settles O34: the policies differ at a length that is no multiple of 4 only. -/
theorem strictSwapWordsRejectsOddWordCount : Obligations.StrictSwapWordsRejectsOddWordCount := by
  refine fun cap s => ⟨fun hlen => ?_, fun hlen => ?_⟩
  · rw [orderSwapWords, if_pos hlen]
    rfl
  · rw [orderSwapWords, if_neg (not_not_intro hlen)]
    rfl

/-- Settles O35, by the permutation within each pair or group. -/
theorem swapsPermuteTheBytes : Obligations.SwapsPermuteTheBytes := by
  rintro s i (rfl | rfl)
  · exact ⟨_, exec_swapBytes s, swapPairs_perm _, swapPairs_length _, rfl, rfl, rfl⟩
  · exact ⟨_, exec_swapWords s, swapGroups_perm _, swapGroups_length _, rfl, rfl, rfl⟩

/-- Settles O36: the loop's writes are the blocks of the transformed buffer. -/
theorem swapsAreTheRulesWriteLoops : Obligations.SwapsAreTheRulesWriteLoops := by
  refine fun m => ⟨Eq.symm ?_, Eq.symm ?_⟩
  · exact foldl_memWrite_eq (swapPairs_length m) (by omega) (fun k hk => (memRead_swapPairs (by omega)).symm)
      fun _ => swapPairs_getElem?_of_le
  · exact foldl_memWrite_eq (swapGroups_length m) (by omega) (fun j hj => (memRead_swapGroups (by omega)).symm)
      fun _ => swapGroups_getElem?_of_le

/-- Settles O37; bytes 1, 2, 3, 4 are changed by either swap. -/
theorem swapsAreInvolutions : Obligations.SwapsAreInvolutions := by
  rintro i (rfl | rfl)
  · exact ⟨fun s => ⟨_, _, exec_swapBytes s, exec_swapBytes _, swapPairs_swapPairs s.buf⟩,
      { buf := [1, 2, 3, 4], pending := [], responses := [] }, _, exec_swapBytes _, by decide⟩
  · exact ⟨fun s => ⟨_, _, exec_swapWords s, exec_swapWords _, swapGroups_swapGroups s.buf⟩,
      { buf := [1, 2, 3, 4], pending := [], responses := [] }, _, exec_swapWords _, by decide⟩

/-- Settles O38: the orders agree group by group, and one of them is read off byte by byte. -/
theorem swapsCommuteAndReverseGroups : Obligations.SwapsCommuteAndReverseGroups := fun s =>
  ⟨_, _, _, _, exec_swapWords s, exec_swapBytes _, exec_swapBytes s, exec_swapWords _, swapPairs_swapGroups s.buf,
    fun _ => swapPairs_swapGroups_getElem?⟩

/-- Settles O39: one group, on which each transform computes. -/
theorem fourByteOrdersReachBigEndian : Obligations.FourByteOrdersReachBigEndian := fun _ _ _ _ _ _ =>
  ⟨⟨_, exec_swapBytes _, rfl⟩, ⟨_, exec_swapWords _, rfl⟩, _, _, exec_swapBytes _, exec_swapWords _, rfl⟩

end Sys2Proof.Machine
end

section
/-! PROOFS. What a command that ends in an error leaves, and the statuses that each shared operation can end in (60_exceptions.md R126,
R131). -/

namespace Sys2Proof.Machine

/-! ### The effect of a command -/

/-- Performing is injective: what a command leaves shows in the buffer and in the last response. -/
theorem eq_of_perform_eq {f g : Memory → Completion} {s : State} (h : perform f s = perform g s) : f s.buf = g s.buf := by
  have hcomplete : s.complete (f s.buf) = s.complete (g s.buf) := Host.Outcome.next.inj h
  have hbuf : (f s.buf).buf = (g s.buf).buf := congrArg State.buf hcomplete
  have hresponse : (f s.buf).response = (g s.buf).response := by simpa using congrArg (·.responses) hcomplete
  exact congrArg₂ Completion.mk hbuf hresponse

theorem completionOf_effect (i : Instr) (m : Memory) : Effect m (completionOf i m) := by
  obtain ⟨f, hexec, heffect⟩ := exec_effect i
  have hf := eq_of_perform_eq ((exec_eq_perform i { buf := m, pending := [], responses := [] }).symm.trans (hexec _))
  exact hf ▸ heffect m

theorem commandCompletion_effect (c : Transaction) (m : Memory) : Effect m (commandCompletion c m) := by
  cases hd : decode c with
  | ok i =>
    rw [commandCompletion_of_ok hd]
    exact completionOf_effect i m
  | error e => exact .failed _ (commandCompletion_of_error hd m)

/-- Of the three effects, the two that answer OK have no error response, and the failure writes nothing. -/
theorem Effect.buf_eq_of_response_error {m : Memory} {k : Completion} {e : CommandError} (hk : Effect m k)
    (he : k.response = .error e) : k.buf = m := by
  cases hk with
  | answered r h => cases (congrArg Completion.response h).symm.trans he
  | failed e' h => rw [h, raise_buf]
  | stored n h => cases (congrArg Completion.response h).symm.trans he

/-! ### The status of a load -/

/-- The capacity is checked first, so a load within it has no CapacityError. -/
theorem load_response_ne_capacityError {c : Config} {T : ScalarType} {vs : List Int} (h : vs.length * scalarWidth T ≤ c.capBytes)
    (m : Memory) (n : Nat) : (load c T vs m).response ≠ .error (.capacityError n) := by
  obtain ⟨hover, -⟩ | ⟨-, k, v, -, -, -, hl⟩ | ⟨-, -, hl⟩ := load_cases c T vs m
  · omega
  · simp [hl]
  · simp [hl]

theorem statusCode_load_mem (c : Config) (T : ScalarType) (vs : List Int) (m : Memory) :
    statusCode (load c T vs m).response ∈ [0, 1, 4] := by
  obtain ⟨-, hl⟩ | ⟨-, k, v, -, -, -, hl⟩ | ⟨-, -, hl⟩ := load_cases c T vs m
  · simp [hl, statusCode, errorCode]
  · simp [hl, statusCode, errorCode]
  · simp [hl, statusCode]

/-- Status 1 is RangeError alone. -/
theorem exists_rangeError_of_statusCode_eq_one {r : Response} (h : statusCode r = 1) : ∃ k, r = .error (.rangeError k) := by
  match r with
  | .error (.rangeError k) => exact ⟨k, rfl⟩

/-- A load of patterns has the statuses of a load without that of RangeError. -/
theorem statusCode_load_patterns_mem {n : Nat} {T : ScalarType} (hmin : scalarMin T = 0) (hmax : scalarMax T = 2 ^ n - 1)
    (c : Config) (vs : List (BitVec n)) (m : Memory) :
    statusCode (load c T (vs.map fun v => (v.toNat : Int)) m).response ∈ [0, 4] := by
  have hone : statusCode (load c T (vs.map fun v => (v.toNat : Int)) m).response ≠ 1 := by
    intro h
    obtain ⟨k, hk⟩ := exists_rangeError_of_statusCode_eq_one h
    exact load_patterns_response_ne_rangeError hmin hmax c vs m k hk
  simpa [hone] using statusCode_load_mem c T (vs.map fun v => (v.toNat : Int)) m

/-! ### The status of a text view -/

theorem statusCode_viewText_mem (map : Byte → Option CodePoint) (m : Memory) :
    statusCode (viewText map m).response ∈ [0, 2] := by
  obtain ⟨cs, -, hv⟩ | ⟨i, -, hv⟩ := viewText_cases map m
  · simp [hv, statusCode]
  · simp [hv, statusCode, errorCode]

/-- ISO 8859-1 decodes every byte (42_raw_hex_text.md R104). -/
theorem statusCode_viewText_latin1 (m : Memory) : statusCode (viewText (encodingMap .latin1) m).response = 0 := by
  rw [viewText_of_valid fun _ _ => rfl, answer_response, statusCode]

end Sys2Proof.Machine
end

section
/-! PROOFS. The statements of 60_exceptions.md. -/

namespace Sys2Proof.Machine

open Sys2Proof.Statements

/-- `most` elements fill the buffer of 256 bytes exactly. -/
theorem capacityAt {α : Type} {mk : List α → Instr} {T : ScalarType} {val : α → Int} {most : Nat} (hmk : LoadsAs mk T val)
    (hmost : most * scalarWidth T = 256) : CapacityAt mk most := by
  refine fun vs s => ⟨fun hover => exec_load_capacityError hmk ?_ s, fun hfits => ?_⟩
  · rw [← hmost]
    exact Nat.mul_lt_mul_of_pos_right hover (scalarWidth_pos T)
  · have hcap : (vs.map val).length * scalarWidth T ≤ Config.thisHardware.capBytes := by
      rw [List.length_map, capBytes_thisHardware, ← hmost]
      exact Nat.mul_le_mul_right _ hfits
    exact ⟨_, _, exec_eq_of_completionOf (hmk vs s.buf), rfl, load_response_ne_capacityError hcap s.buf⟩

/-- Settles O21: 128 elements of two bytes, 64 of four and 32 of eight are 256 bytes. -/
theorem capacityErrorExactlyAboveTheCount : Obligations.CapacityErrorExactlyAboveTheCount :=
  ⟨capacityAt loadsAs_ldU16 rfl, capacityAt loadsAs_ldI16 rfl, capacityAt loadsAs_ldWords rfl,
    capacityAt loadsAs_ldU32 rfl, capacityAt loadsAs_ldI32 rfl, capacityAt loadsAs_ldF32 rfl,
    capacityAt loadsAs_ldU64 rfl, capacityAt loadsAs_ldI64 rfl, capacityAt loadsAs_ldF64 rfl⟩

/-- Settles O40: a step that answers has completed a command, and of a command's effects the failure leaves the buffer. -/
theorem failedCommandsLeaveTheBuffer : Obligations.FailedCommandsLeaveTheBuffer := by
  intro s t e hs hr
  obtain ⟨c, rest, hp, he⟩ := response_of_step hs hr
  obtain rfl := Host.Outcome.next.inj ((step_of_pending_command hp).symm.trans hs)
  exact (commandCompletion_effect c s.buf).buf_eq_of_response_error he.symm

theorem statusCode_completionOf_mem (i : Instr) (m : Memory) : statusCode (completionOf i m).response ∈ allowedStatuses i := by
  cases i with
  | ldU16 vs | ldI16 vs | ldU32 vs | ldI32 vs | ldU64 vs | ldI64 vs => exact statusCode_load_mem _ _ vs m
  | ldF32 vs | ldF64 vs | ldWords vs => exact statusCode_load_patterns_mem rfl rfl _ vs m
  | rdU16 | rdI16 | rdU32 | rdI32 | rdU64 | rdI64 | rdF32 | rdF64 | rdWords | rdBytes | rdHex | swapBytes | swapWords =>
    exact List.mem_singleton.mpr rfl
  | rdText enc =>
    cases enc with
    | latin1 => exact List.mem_singleton.mpr (statusCode_viewText_latin1 m)
    | ascii => exact statusCode_viewText_mem _ m

/-- Settles O41, by the statuses of the completion that each command performs. -/
theorem eachCommandEndsInItsStatuses : Obligations.EachCommandEndsInItsStatuses := fun i s =>
  ⟨_, _, exec_eq_perform i s, rfl, statusCode_completionOf_mem i s.buf⟩

/-- Settles O5: words that decode to no command complete as IllegalCommand. -/
theorem illegalWordsAreAnsweredAndWriteNothing : Obligations.IllegalWordsAreAnsweredAndWriteNothing := by
  refine ⟨fun s c rest e hp hd => ?_, rfl⟩
  rw [step_of_pending_command hp, commandCompletion_of_error hd]
  rfl

/-- Settles O6: of the cases of `step_cases` only the idle one has nothing pending. -/
theorem idleStepChangesNothing : Obligations.IdleStepChangesNothing := by
  intro s h
  obtain ⟨-, hs⟩ | ⟨c, rest, hp, -⟩ | ⟨c, rest, e, hp, -⟩ | ⟨c, rest, i, hp, -⟩ := step_cases s
  · exact hs
  · cases h.symm.trans hp
  · cases h.symm.trans hp
  · cases h.symm.trans hp

/-- Settles O42, by the codes and infos of the error table. -/
theorem errorResponsesAreTwoWords : Obligations.ErrorResponsesAreTwoWords := fun _ => ⟨rfl, rfl, rfl, rfl, rfl⟩

end Sys2Proof.Machine
end

section
/-! PROOFS. The statements of 70_reset_and_hazards.md. -/

namespace Sys2Proof.Machine

/-- Settles O1: a step on a reset empties the buffer and touches no response. -/
theorem resetEmptiesBufferWithoutResponse : Obligations.ResetEmptiesBufferWithoutResponse := by
  refine ⟨rfl, fun s inProgress rest hp => ?_⟩
  obtain ⟨⟨_, responses⟩, m⟩ := s
  obtain rfl := hp
  exact step_reset inProgress m rest responses

/-- The oldest event and the later ones are owed their responses apart. -/
theorem commandsIn_eq_take_add_tail (es : List HostEvent) : commandsIn es = commandsIn (es.take 1) + commandsIn es.tail := by
  rw [← List.drop_one, commandsIn, commandsIn, commandsIn, ← List.countP_append, List.take_append_drop]

/-- A run of as many steps as there are pending events takes them all, from any state with that many. -/
theorem run_takes_pending (n : Nat) {s : State} (hn : s.pending.length = n) :
    ∃ t rs, Host.Core.run core n s = .next t ∧ t.pending = [] ∧ t.responses = s.responses ++ rs ∧
      rs.length = commandsIn s.pending ∧ (StateInv s → StateInv t) := by
  induction n generalizing s with
  | zero =>
    have hnil : s.pending = [] := List.eq_nil_of_length_eq_zero hn
    exact ⟨s, [], rfl, hnil, (List.append_nil _).symm, by rw [hnil]; rfl, id⟩
  | succ n ih =>
    obtain ⟨u, rs₁, hstep, hpending, hresp₁, hlen₁⟩ := everyCommandGetsOneResponse s
    have hleft : u.pending.length = n := by rw [hpending, List.length_tail, hn, Nat.add_sub_cancel]
    obtain ⟨t, rs₂, hrun, hnil, hresp₂, hlen₂, hinv⟩ := ih hleft
    refine ⟨t, rs₁ ++ rs₂, (run_succ n s u hstep).trans hrun, hnil, ?_, ?_, fun hs => hinv (stateInv_step hs hstep)⟩
    · rw [hresp₂, hresp₁, List.append_assoc]
    · rw [List.length_append, hlen₁, hlen₂, hpending, ← commandsIn_eq_take_add_tail]

/-- Settles O8, by induction on the number of pending events. -/
theorem runAnswersEveryCommand : Obligations.RunAnswersEveryCommand := fun _ => run_takes_pending _ rfl

end Sys2Proof.Machine
end
